-- ==== Sys2Proof/Word.lean ====
section
/-! DEFINITION. The word types of the machine (spec/00_scope.md R6: every value is an unsigned
bit vector of a stated width) and a register's name. -/

namespace Sys2Proof

/-- 8 bits: a memory byte, a general register, a timer (R11, R17, R30). -/
abbrev Byte := BitVec 8

/-- 16 bits: an instruction word, `pc`, `I`, a stack entry (R13, R14, R15, R50). -/
abbrev Word16 := BitVec 16

/-- 12 bits: the address field `nnn` (R51). -/
abbrev Addr12 := BitVec 12

/-- 4 bits: the immediate field `n` (R51). -/
abbrev Nibble := BitVec 4

/-- The index of a general register, `V0` to `VF` (R11). -/
abbrev Reg := Fin 16

/-- The flag register `VF` (R12). -/
def Reg.flag : Reg := 0xF

end Sys2Proof
end

