-- ==== Sys2Proof/Syntax.lean ====
section
/-! DEFINITION. The instructions: one constructor per row of spec/opcode_table.json
(spec/30_encoding.md R64), with the fields the row's format names (R51, R52). -/

namespace Sys2Proof

/-- The 35 handlers of R64. `x` and `y` are register indexes, `nnn`, `nn`, `n` immediates. -/
inductive Instr where
  /-- `00E0`, R120. -/
  | cls
  /-- `00EE`, R80. -/
  | ret
  /-- `1NNN`, R81. -/
  | jp (nnn : Addr12)
  /-- `2NNN`, R82. -/
  | call (nnn : Addr12)
  /-- `3XNN`, R83. -/
  | seImm (x : Reg) (nn : Byte)
  /-- `4XNN`, R84. -/
  | sneImm (x : Reg) (nn : Byte)
  /-- `5XY_`, R85; the low nibble is carried and never examined (R55, log 13). -/
  | seReg (x y : Reg) (ignored : Nibble)
  /-- `6XNN`, R90. -/
  | ldImm (x : Reg) (nn : Byte)
  /-- `7XNN`, R91. -/
  | addImm (x : Reg) (nn : Byte)
  /-- `8XY0`, R92. -/
  | ldReg (x y : Reg)
  /-- `8XY1`, R93. -/
  | or (x y : Reg)
  /-- `8XY2`, R94. -/
  | and (x y : Reg)
  /-- `8XY3`, R95. -/
  | xor (x y : Reg)
  /-- `8XY4`, R96. -/
  | addReg (x y : Reg)
  /-- `8XY5`, R97. -/
  | sub (x y : Reg)
  /-- `8XY6`, R98. -/
  | shr (x y : Reg)
  /-- `8XY7`, R99. -/
  | subn (x y : Reg)
  /-- `8XYE`, R100. -/
  | shl (x y : Reg)
  /-- `9XY_`, R86; the low nibble is carried and never examined (R55, log 13). -/
  | sneReg (x y : Reg) (ignored : Nibble)
  /-- `ANNN`, R110. -/
  | ldI (nnn : Addr12)
  /-- `BXNN`, R87. -/
  | jpOff (x : Reg) (nn : Byte)
  /-- `CXNN`, R101. -/
  | rnd (x : Reg) (nn : Byte)
  /-- `DXYN`, R121. -/
  | drw (x y : Reg) (n : Nibble)
  /-- `EX9E`, R130. -/
  | skp (x : Reg)
  /-- `EXA1`, R131. -/
  | sknp (x : Reg)
  /-- `FX07`, R132. -/
  | ldVxDT (x : Reg)
  /-- `FX0A`, R133. -/
  | ldVxK (x : Reg)
  /-- `FX15`, R134. -/
  | ldDTVx (x : Reg)
  /-- `FX18`, R135. -/
  | ldSTVx (x : Reg)
  /-- `FX1E`, R111. -/
  | addI (x : Reg)
  /-- `FX29`, R112. -/
  | ldF (x : Reg)
  /-- `FX33`, R113. -/
  | ldB (x : Reg)
  /-- `FX55`, R114. -/
  | storeRegs (x : Reg)
  /-- `FX65`, R115. -/
  | loadRegs (x : Reg)
  /-- Row 35, R74: every word `w` no other row matches (R60). -/
  | unknown (w : Word16)
deriving DecidableEq, Repr

/-- One row of the opcode map R64: a word `w` selects it when `w &&& mask = value`. -/
structure OpcodeRow where
  mnemonic : String
  mask : Word16
  value : Word16
deriving DecidableEq, Repr

end Sys2Proof
end

