-- ==== Sys2Proof/WellFormed.lean ====
section
/-! DEFINITION. Well-formed instructions. Every field's range is in its type; what is left to
check is that an UNKNOWN instruction carries a word of spec/30_encoding.md R60. -/

namespace Sys2Proof

/-- The words of R60, family by family: the words that no row 1 to 34 of R64 matches. -/
def unknownWord (w : Word16) : Bool :=
  let op := w.toNat / 0x1000
  let n := w.toNat % 0x10
  let nn := w.toNat % 0x100
  (op == 0x0 && !(w == 0x00E0) && !(w == 0x00EE)) ||
  (op == 0x8 && [0x8, 0x9, 0xA, 0xB, 0xC, 0xD, 0xF].contains n) ||
  (op == 0xE && !([0x9E, 0xA1].contains nn)) ||
  (op == 0xF && !([0x07, 0x0A, 0x15, 0x18, 0x1E, 0x29, 0x33, 0x55, 0x65].contains nn))

/-- An instruction is well formed when its word is one of its own row. -/
def Instr.wf : Instr → Bool
  | .cls | .ret | .jp _ | .call _ | .seImm _ _ | .sneImm _ _ | .seReg _ _ _ | .ldImm _ _
  | .addImm _ _ | .ldReg _ _ | .or _ _ | .and _ _ | .xor _ _ | .addReg _ _ | .sub _ _
  | .shr _ _ | .subn _ _ | .shl _ _ | .sneReg _ _ _ | .ldI _ | .jpOff _ _ | .rnd _ _
  | .drw _ _ _ | .skp _ | .sknp _ | .ldVxDT _ | .ldVxK _ | .ldDTVx _ | .ldSTVx _ | .addI _
  | .ldF _ | .ldB _ | .storeRegs _ | .loadRegs _ => true
  | .unknown w => unknownWord w

end Sys2Proof
end

