-- ==== Sys2Proof/Decode.lean ====
section
/-! DEFINITION. The decoder, total on any bytes (spec/30_encoding.md R50 to R60, R64), and after
it the encoder. A sequence shorter than one word is rejected by name. -/

namespace Sys2Proof

/-! ## Fields (R51) -/

/-- `op = w[15:12]`, the primary dispatch key. -/
def opField (w : Word16) : Nibble := w.extractLsb' 12 4

/-- `x = w[11:8]`. -/
def xField (w : Word16) : Reg := (w.extractLsb' 8 4).toFin

/-- `y = w[7:4]`. -/
def yField (w : Word16) : Reg := (w.extractLsb' 4 4).toFin

/-- `n = w[3:0]`. -/
def nField (w : Word16) : Nibble := w.extractLsb' 0 4

/-- `nn = w[7:0]`. -/
def nnField (w : Word16) : Byte := w.extractLsb' 0 8

/-- `nnn = w[11:0]`. -/
def nnnField (w : Word16) : Addr12 := w.extractLsb' 0 12

/-! ## Dispatch (R53, R54)
PRESUMED: the spec takes the key values from general knowledge, but for `8XY6`, `8XYE`, `BXNN`
and the numbers of the four two-level families (log 10). Which key each two-level family
compares is the spec's decision D8 (log 12). -/

/-- Family `0x0`: the whole word is compared (R56). -/
def decodeFamily0 (w : Word16) : Instr :=
  match w with
  | 0x00E0#16 => .cls
  | 0x00EE#16 => .ret
  | _ => .unknown w

/-- Family `0x8`: keyed on the low nibble (R57). -/
def decodeFamily8 (w : Word16) : Instr :=
  let x := xField w
  let y := yField w
  match nField w with
  | 0x0#4 => .ldReg x y
  | 0x1#4 => .or x y
  | 0x2#4 => .and x y
  | 0x3#4 => .xor x y
  | 0x4#4 => .addReg x y
  | 0x5#4 => .sub x y
  | 0x6#4 => .shr x y
  | 0x7#4 => .subn x y
  | 0xE#4 => .shl x y
  | _ => .unknown w

/-- Family `0xE`: keyed on the low byte (R58). -/
def decodeFamilyE (w : Word16) : Instr :=
  match nnField w with
  | 0x9E#8 => .skp (xField w)
  | 0xA1#8 => .sknp (xField w)
  | _ => .unknown w

/-- Family `0xF`: keyed on the low byte (R59). -/
def decodeFamilyF (w : Word16) : Instr :=
  let x := xField w
  match nnField w with
  | 0x07#8 => .ldVxDT x
  | 0x0A#8 => .ldVxK x
  | 0x15#8 => .ldDTVx x
  | 0x18#8 => .ldSTVx x
  | 0x1E#8 => .addI x
  | 0x29#8 => .ldF x
  | 0x33#8 => .ldB x
  | 0x55#8 => .storeRegs x
  | 0x65#8 => .loadRegs x
  | _ => .unknown w

/-- Primary dispatch on the high nibble (R53, R72). Total: a word no row takes is UNKNOWN (R60).
The last arm is family `0xF`, the only value of `op` left. -/
def decodeWord (w : Word16) : Instr :=
  match opField w with
  | 0x0#4 => decodeFamily0 w
  | 0x1#4 => .jp (nnnField w)
  | 0x2#4 => .call (nnnField w)
  | 0x3#4 => .seImm (xField w) (nnField w)
  | 0x4#4 => .sneImm (xField w) (nnField w)
  | 0x5#4 => .seReg (xField w) (yField w) (nField w)
  | 0x6#4 => .ldImm (xField w) (nnField w)
  | 0x7#4 => .addImm (xField w) (nnField w)
  | 0x8#4 => decodeFamily8 w
  | 0x9#4 => .sneReg (xField w) (yField w) (nField w)
  | 0xA#4 => .ldI (nnnField w)
  | 0xB#4 => .jpOff (xField w) (nnField w)
  | 0xC#4 => .rnd (xField w) (nnField w)
  | 0xD#4 => .drw (xField w) (yField w) (nField w)
  | 0xE#4 => decodeFamilyE w
  | _ => decodeFamilyF w

/-! ## Bytes (R32, R50) -/

/-- The word of two bytes, the byte at the lower address in the high bits (R32). -/
def wordOfBytes (hi lo : Byte) : Word16 := hi ++ lo

/-- The byte of a word at the lower address. -/
def highByte (w : Word16) : Byte := w.extractLsb' 8 8

/-- The byte of a word at the higher address. -/
def lowByte (w : Word16) : Byte := w.extractLsb' 0 8

/-- Why a byte sequence is not an instruction. -/
inductive DecodeError where
  /-- Fewer than the two bytes every instruction has (R50). -/
  | truncated
deriving DecidableEq, Repr

/-- The instruction at the head of a byte sequence, with the bytes after it. -/
def decode : List Byte → Except DecodeError (Instr × List Byte)
  | hi :: lo :: rest => .ok (decodeWord (wordOfBytes hi lo), rest)
  | [_] | [] => .error .truncated

/-- The host's probe: the decoder's answer on the table word `w` of `nbits` bits, laid out as the
hardware stores it (R32). -/
def decodeTableWord (nbits w : Nat) : Option Instr :=
  let word := BitVec.ofNat 16 (w % 2 ^ nbits)
  match decode [highByte word, lowByte word] with
  | .ok (i, _) => some i
  | .error _ => none

/-! ## Encoder (R52, R64) -/

/-- A register index as the four bits of its field. -/
def regBits (r : Reg) : Nibble := BitVec.ofFin r

/-- Format `NNN`. -/
def wordNNN (op : Nibble) (nnn : Addr12) : Word16 := op ++ nnn

/-- Formats `XNN` and `XKK`. -/
def wordXNN (op : Nibble) (x : Reg) (nn : Byte) : Word16 := op ++ regBits x ++ nn

/-- Formats `XY` and `XYN`. -/
def wordXYN (op : Nibble) (x y : Reg) (n : Nibble) : Word16 := op ++ regBits x ++ regBits y ++ n

/-- The word of an instruction. -/
def encode : Instr → Word16
  | .cls => 0x00E0
  | .ret => 0x00EE
  | .jp nnn => wordNNN 0x1 nnn
  | .call nnn => wordNNN 0x2 nnn
  | .seImm x nn => wordXNN 0x3 x nn
  | .sneImm x nn => wordXNN 0x4 x nn
  | .seReg x y ignored => wordXYN 0x5 x y ignored
  | .ldImm x nn => wordXNN 0x6 x nn
  | .addImm x nn => wordXNN 0x7 x nn
  | .ldReg x y => wordXYN 0x8 x y 0x0
  | .or x y => wordXYN 0x8 x y 0x1
  | .and x y => wordXYN 0x8 x y 0x2
  | .xor x y => wordXYN 0x8 x y 0x3
  | .addReg x y => wordXYN 0x8 x y 0x4
  | .sub x y => wordXYN 0x8 x y 0x5
  | .shr x y => wordXYN 0x8 x y 0x6
  | .subn x y => wordXYN 0x8 x y 0x7
  | .shl x y => wordXYN 0x8 x y 0xE
  | .sneReg x y ignored => wordXYN 0x9 x y ignored
  | .ldI nnn => wordNNN 0xA nnn
  | .jpOff x nn => wordXNN 0xB x nn
  | .rnd x nn => wordXNN 0xC x nn
  | .drw x y n => wordXYN 0xD x y n
  | .skp x => wordXNN 0xE x 0x9E
  | .sknp x => wordXNN 0xE x 0xA1
  | .ldVxDT x => wordXNN 0xF x 0x07
  | .ldVxK x => wordXNN 0xF x 0x0A
  | .ldDTVx x => wordXNN 0xF x 0x15
  | .ldSTVx x => wordXNN 0xF x 0x18
  | .addI x => wordXNN 0xF x 0x1E
  | .ldF x => wordXNN 0xF x 0x29
  | .ldB x => wordXNN 0xF x 0x33
  | .storeRegs x => wordXNN 0xF x 0x55
  | .loadRegs x => wordXNN 0xF x 0x65
  | .unknown w => w

/-- The bytes of an instruction as memory holds them (R32). -/
def encodeBytes (i : Instr) : List Byte := [highByte (encode i), lowByte (encode i)]

/-! ## The opcode map (R64), rows 1 to 34, as the spec tabulates it -/

/-- The rows of R64 in its order, under the mnemonics of spec/opcode_table.json. -/
def opcodeTable : List OpcodeRow :=
  [⟨"CLS", 0xFFFF, 0x00E0⟩, ⟨"RET", 0xFFFF, 0x00EE⟩, ⟨"JP_nnn", 0xF000, 0x1000⟩,
   ⟨"CALL_nnn", 0xF000, 0x2000⟩, ⟨"SE_Vx__nn", 0xF000, 0x3000⟩, ⟨"SNE_Vx__nn", 0xF000, 0x4000⟩,
   ⟨"SE_Vx__Vy", 0xF000, 0x5000⟩, ⟨"LD_Vx__nn", 0xF000, 0x6000⟩, ⟨"ADD_Vx__nn", 0xF000, 0x7000⟩] ++
  [⟨"LD_Vx__Vy", 0xF00F, 0x8000⟩, ⟨"OR_Vx__Vy", 0xF00F, 0x8001⟩, ⟨"AND_Vx__Vy", 0xF00F, 0x8002⟩,
   ⟨"XOR_Vx__Vy", 0xF00F, 0x8003⟩, ⟨"ADD_Vx__Vy", 0xF00F, 0x8004⟩, ⟨"SUB_Vx__Vy", 0xF00F, 0x8005⟩,
   ⟨"SHR_Vx__Vy", 0xF00F, 0x8006⟩, ⟨"SUBN_Vx__Vy", 0xF00F, 0x8007⟩, ⟨"SHL_Vx__Vy", 0xF00F, 0x800E⟩] ++
  [⟨"SNE_Vx__Vy", 0xF000, 0x9000⟩, ⟨"LD_I__nnn", 0xF000, 0xA000⟩, ⟨"JP_Vx__nn", 0xF000, 0xB000⟩,
   ⟨"RND_Vx__nn", 0xF000, 0xC000⟩, ⟨"DRW_Vx__Vy__n", 0xF000, 0xD000⟩, ⟨"SKP_Vx", 0xF0FF, 0xE09E⟩,
   ⟨"SKNP_Vx", 0xF0FF, 0xE0A1⟩] ++
  [⟨"LD_Vx__DT", 0xF0FF, 0xF007⟩, ⟨"LD_Vx__K", 0xF0FF, 0xF00A⟩, ⟨"LD_DT__Vx", 0xF0FF, 0xF015⟩,
   ⟨"LD_ST__Vx", 0xF0FF, 0xF018⟩, ⟨"ADD_I__Vx", 0xF0FF, 0xF01E⟩, ⟨"LD_F__Vx", 0xF0FF, 0xF029⟩,
   ⟨"LD_B__Vx", 0xF0FF, 0xF033⟩, ⟨"LD__I___Vx", 0xF0FF, 0xF055⟩, ⟨"LD_Vx___I", 0xF0FF, 0xF065⟩]

/-- The row of R64 a word selects: the first whose masked compare succeeds, else row 35. -/
def tableMnemonic (w : Word16) : String :=
  match opcodeTable.find? (fun r => w &&& r.mask == r.value) with
  | some r => r.mnemonic
  | none => "UNKNOWN"

/-- The row of an instruction, as LAWS.json maps it. -/
def Instr.mnemonic : Instr → String
  | .cls => "CLS"
  | .ret => "RET"
  | .jp _ => "JP_nnn"
  | .call _ => "CALL_nnn"
  | .seImm _ _ => "SE_Vx__nn"
  | .sneImm _ _ => "SNE_Vx__nn"
  | .seReg _ _ _ => "SE_Vx__Vy"
  | .ldImm _ _ => "LD_Vx__nn"
  | .addImm _ _ => "ADD_Vx__nn"
  | .ldReg _ _ => "LD_Vx__Vy"
  | .or _ _ => "OR_Vx__Vy"
  | .and _ _ => "AND_Vx__Vy"
  | .xor _ _ => "XOR_Vx__Vy"
  | .addReg _ _ => "ADD_Vx__Vy"
  | .sub _ _ => "SUB_Vx__Vy"
  | .shr _ _ => "SHR_Vx__Vy"
  | .subn _ _ => "SUBN_Vx__Vy"
  | .shl _ _ => "SHL_Vx__Vy"
  | .sneReg _ _ _ => "SNE_Vx__Vy"
  | .ldI _ => "LD_I__nnn"
  | .jpOff _ _ => "JP_Vx__nn"
  | .rnd _ _ => "RND_Vx__nn"
  | .drw _ _ _ => "DRW_Vx__Vy__n"
  | .skp _ => "SKP_Vx"
  | .sknp _ => "SKNP_Vx"
  | .ldVxDT _ => "LD_Vx__DT"
  | .ldVxK _ => "LD_Vx__K"
  | .ldDTVx _ => "LD_DT__Vx"
  | .ldSTVx _ => "LD_ST__Vx"
  | .addI _ => "ADD_I__Vx"
  | .ldF _ => "LD_F__Vx"
  | .ldB _ => "LD_B__Vx"
  | .storeRegs _ => "LD__I___Vx"
  | .loadRegs _ => "LD_Vx___I"
  | .unknown _ => "UNKNOWN"

end Sys2Proof
end

