-- ==== Sys2Proof/Config.lean ====
section
/-! DEFINITION. What the implementation fixes (spec/00_scope.md R5) and the one free value
(spec/60_exceptions.md R157). -/

namespace Sys2Proof.Config

/-- `MEM_SIZE` of R5. -/
def memSize : Nat := 4096

/-- `FONT_BASE` of R5. -/
def fontBase : Nat := 0x050

/-- `PROG_BASE` of R5: the load address and the reset `pc`. -/
def progBase : Nat := 0x200

/-- `MAX_ROM` of R5: `4096 - 0x200`. -/
def maxRom : Nat := 3584

/-- `FONT` of R5: the 80 bytes of R171's table, digit by digit.
PRESUMED: the spec takes the byte values from general knowledge (log 9). -/
def font : List Byte :=
  [0xF0, 0x90, 0x90, 0x90, 0xF0] ++ [0x20, 0x60, 0x20, 0x20, 0x70] ++
  [0xF0, 0x10, 0xF0, 0x80, 0xF0] ++ [0xF0, 0x10, 0xF0, 0x10, 0xF0] ++
  [0x90, 0x90, 0xF0, 0x10, 0x10] ++ [0xF0, 0x80, 0xF0, 0x10, 0xF0] ++
  [0xF0, 0x80, 0xF0, 0x90, 0xF0] ++ [0xF0, 0x10, 0x20, 0x40, 0x40] ++
  [0xF0, 0x90, 0xF0, 0x90, 0xF0] ++ [0xF0, 0x90, 0xF0, 0x10, 0xF0] ++
  [0xF0, 0x90, 0xF0, 0x90, 0x90] ++ [0xE0, 0x90, 0xE0, 0x90, 0xE0] ++
  [0xF0, 0x80, 0x80, 0x80, 0xF0] ++ [0xE0, 0x90, 0x90, 0x90, 0xE0] ++
  [0xF0, 0x80, 0xF0, 0x80, 0xF0] ++ [0xF0, 0x80, 0xF0, 0x80, 0x80]

/-- The random input `rnd` of the k-th draw (R157): a free value, under no law.
DESIGN CHOICE: a stream indexed by the model's counter `State.draws` (log 5). -/
opaque freeByte : Nat → Byte

end Sys2Proof.Config
end

