-- ==== Sys2Proof/Machine/State.lean ====
section
/-! DEFINITION. The state of the core (spec/10_state.md R10), its reset value (R25, R170), and the
reasons a cycle can stop. -/

namespace Sys2Proof.Machine

/-- The five fatal conditions of spec/60_exceptions.md R140. Each is the cause in a fault record:
raising one is a NEXT state with the halt latch set (R149, log 2), so no step of this model ends in
`Host.Outcome.fault`. -/
inductive Fault where
  /-- Code 1: raised by fetch when `pc > 0x0FFE` (R141). Safe: the spec's own fault. -/
  | fetchOutOfBounds
  /-- Code 2: raised by RET with `sp = 0` (R142). Safe: the spec's own fault. -/
  | stackUnderflow
  /-- Code 3: raised by CALL with `sp = 16` (R143). Safe: the spec's own fault. -/
  | stackOverflow
  /-- Code 4: raised by DRW, LD B, LD [I], LD Vx,[I] whose last address exceeds `0xFFF` (R144).
  Safe: the spec's decision D5 errs toward unprovable (log 14). -/
  | dataAccessOutOfBounds
  /-- Code 5: raised by SKP and SKNP with `V[x] > 0x0F` (R145).
  Safe: the spec's decision D6 errs toward unprovable (log 15). -/
  | keyIndexOutOfRange
deriving DecidableEq, Repr

/-- Why an instruction has no meaning here. -/
inductive Refusal where
  /-- Raised by an arm of `exec` whose instruction has no meaning yet; no arm is left so. Safe. -/
  | notModelled (mnemonic : String)
deriving DecidableEq, Repr

/-- The content of a fault record (R23, R149). -/
structure FaultRecord where
  cause : Fault
  pc : Word16
  opcode : Word16
deriving DecidableEq, Repr

/-- The content of an UnknownOpcode report (R146). -/
structure Report where
  pc : Word16
  opcode : Word16
deriving DecidableEq, Repr

/-- Bytes by address, in canonical form: addresses strictly rising, no entry equal to what an
unlisted address reads as (Machine/Memory.lean). -/
abbrev Memory := List Host.Cell

/-- The framebuffer: `disp[row][col]`, 32 rows of 64 pixels (R20). -/
abbrev Frame := Vector (Vector Bool 64) 32

/-- The fields of R10, and the model's own `report` and `draws`. -/
structure State where
  /-- R22, R30. -/
  mem : Memory
  /-- R13: the address of the next fetch; inside a cycle, already advanced. -/
  pc : Word16
  /-- R14. -/
  I : Word16
  /-- R11, R12: `V0` to `VF`. -/
  V : Vector Byte 16
  /-- R15. -/
  stack : Vector Word16 16
  /-- R16: the number of live entries, 0 to 16. -/
  sp : Fin 17
  /-- R17. -/
  DT : Byte
  /-- R18. -/
  ST : Byte
  /-- R19, R154: written by the host only. -/
  key : Vector Bool 16
  /-- R20. -/
  disp : Frame
  /-- R21. -/
  opcode : Word16
  /-- R23. -/
  halted : Bool
  /-- R23: no record while `halted = 0` (log 7). -/
  fault : Option FaultRecord
  /-- R146, R162: the report of the last cycle, if it made one (log 4). -/
  report : Option Report
  /-- The model's own: the index of the next free random byte (log 5, log 6). -/
  draws : Nat
deriving DecidableEq, Repr

/-- A frame with every pixel clear. -/
def Frame.blank : Frame := Vector.replicate 32 (Vector.replicate 64 false)

/-- The state right after reset, before program load (R25, R170). -/
def State.reset : State where
  mem := []
  pc := 0x0200
  I := 0
  V := Vector.replicate 16 0
  stack := Vector.replicate 16 0
  sp := 0
  DT := 0
  ST := 0
  key := Vector.replicate 16 false
  disp := Frame.blank
  opcode := 0
  halted := false
  fault := none
  report := none
  draws := 0

end Sys2Proof.Machine
end

