-- ==== Sys2Proof/Machine/Memory.lean ====
section
/-! DEFINITION. The memory array as data: what an unlisted address holds, one byte read, one byte
written, and the canonical form (spec/20_memory.md R30, R31, R44). -/

namespace Sys2Proof.Machine

/-- What an address nothing has written holds: the reset image of R25, zero but for the font at
`0x050` to `0x09F` (R171, log 27). -/
def Memory.unlisted (a : Nat) : Byte :=
  if Config.fontBase ≤ a then Config.font.getD (a - Config.fontBase) 0 else 0

/-- The byte at an address. -/
def Memory.read : Memory → Nat → Byte
  | [], a => Memory.unlisted a
  | (b, v) :: m, a => if a = b then v else Memory.read m a

/-- One byte stored, keeping the canonical form. -/
def Memory.write : Memory → Nat → Byte → Memory
  | [], a, v => if v = Memory.unlisted a then [] else [(a, v)]
  | (b, w) :: m, a, v =>
    if a < b then
      if v = Memory.unlisted a then (b, w) :: m else (a, v) :: (b, w) :: m
    else if a = b then
      if v = Memory.unlisted a then m else (a, v) :: m
    else (b, w) :: Memory.write m a v

/-- Bytes written at rising addresses. -/
def Memory.writeList : Memory → Nat → List Byte → Memory
  | m, _, [] => m
  | m, a, b :: bs => Memory.writeList (m.write a b) (a + 1) bs

/-- The canonical form of the entries at `lo` and above: addresses rising, inside the 4096 bytes,
no entry equal to what its address reads as unlisted. -/
def Memory.wfFrom : Nat → Memory → Bool
  | _, [] => true
  | lo, (a, v) :: m =>
    decide (lo ≤ a) && decide (a < Config.memSize) && !(v == Memory.unlisted a) &&
      Memory.wfFrom (a + 1) m

/-- The canonical form. -/
def Memory.wf (m : Memory) : Bool := Memory.wfFrom 0 m

end Sys2Proof.Machine
end

