-- ==== Sys2Proof/Machine/Operands.lean ====
section
/-! DEFINITION. The operand forms (spec/30_encoding.md R61): register operands, zero-extended
immediates, the digit and key selected by a register's content, the targets that `pc` and `I`
receive. -/

namespace Sys2Proof.Machine

/-- The content of `V[r]` (R11). -/
def State.reg (s : State) (r : Reg) : Byte := s.V[r.val]

/-- `V[r] <- b` (R11): every register is writable, none is hardwired. -/
def State.setReg (s : State) (r : Reg) (b : Byte) : State := { s with V := s.V.set r.val b }

/-- `zext_16` of an address field (R61). -/
def zextAddr (nnn : Addr12) : Word16 := nnn.setWidth 16

/-- `zext_16` of a byte (R61). -/
def zextByte (b : Byte) : Word16 := b.setWidth 16

/-- `JPX_TARGET` (R87, 93_implementation_defined.md U9), in one place so that it can be changed:
`zext_16(nn) + zext_16(V[x])`. The reading is the spec's decision D30 (log 19). -/
def jumpOffTarget (x : Reg) (nn : Byte) (s : State) : Word16 :=
  zextByte nn + zextByte (s.reg x)

/-- The hexadecimal digit a register selects: its low nibble (R112, decision D28, log 18). -/
def digitOf (b : Byte) : Nat := b.toNat % 16

/-- The font address of a digit: `0x0050 + 5 * d` (R112). -/
def glyphAddr (d : Nat) : Word16 := BitVec.ofNat 16 (Config.fontBase + 5 * d)

/-- The key a register's content names, or KeyIndexOutOfRange (R130, R131, R145; log 15). -/
def keyIndex (b : Byte) : Except Fault (Fin 16) :=
  if h : b.toNat ≤ 0x0F then .ok ⟨b.toNat, by omega⟩ else .error .keyIndexOutOfRange

/-- `key[k]` (R19). -/
def State.keyDown (s : State) (k : Fin 16) : Bool := s.key[k.val]

/-- The least pressed key, if any is down (R133; the choice among several is the spec's decision
D7, log 16). -/
def State.lowestKey (s : State) : Option (Fin 16) :=
  (List.finRange 16).find? s.keyDown

/-- The three decimal digits of a byte, hundreds first (R113). -/
def decimalDigits (v : Byte) : List Byte :=
  [BitVec.ofNat 8 (v.toNat / 100), BitVec.ofNat 8 (v.toNat / 10 % 10), BitVec.ofNat 8 (v.toNat % 10)]

/-- `V[0], ..., V[x]` in ascending order (R114). -/
def State.regsUpTo (s : State) (x : Reg) : List Byte := s.V.toList.take (x.val + 1)

/-- `V[k], V[k+1], ...` receive the bytes in ascending order (R115). -/
def State.setRegsFrom (s : State) : Nat → List Byte → State
  | _, [] => s
  | k, b :: bs => State.setRegsFrom { s with V := s.V.setIfInBounds k b } (k + 1) bs

end Sys2Proof.Machine
end

