-- ==== Sys2Proof/Machine/Flags.lean ====
section
/-! DEFINITION. The value each flag-setting instruction writes to VF (spec/10_state.md R12): always
`0x00` or `0x01`, computed from the exact operands before anything is written (R107, R108). -/

namespace Sys2Proof.Machine

/-- A flag as the byte VF receives. -/
def flagByte (b : Bool) : Byte := if b then 0x01 else 0x00

/-- ADD Vx, Vy: the exact sum exceeded 255 (R96). -/
def addCarry (a b : Byte) : Bool := decide (a.toNat + b.toNat > 255)

/-- SUB and SUBN: the minuend was strictly greater; equal operands give 0 (R97, R99, log 20). -/
def noBorrow (minuend subtrahend : Byte) : Bool := decide (minuend.toNat > subtrahend.toNat)

/-- SHR: bit 0 of the source (R98). -/
def shiftedOutLow (b : Byte) : Bool := b.getLsbD 0

/-- SHL: bit 7 of the source (R100). -/
def shiftedOutHigh (b : Byte) : Bool := b.getLsbD 7

/-- ADD I, Vx: the exact sum exceeded `0xFFFF` (R111). -/
def indexOverflow (i : Word16) (b : Byte) : Bool := decide (i.toNat + b.toNat > 0xFFFF)

/-- `VF <- flag`, the last write of the instruction (R108, log 21). -/
def State.setFlag (s : State) (b : Bool) : State := s.setReg Reg.flag (flagByte b)

/-- Result to `V[x]`, then flag to VF, so that with `x = 0xF` the flag wins (R108). -/
def State.setRegFlag (s : State) (x : Reg) (result : Byte) (flag : Bool) : State :=
  (s.setReg x result).setFlag flag

end Sys2Proof.Machine
end

