-- ==== Sys2Proof/Machine/Ops.lean ====
section
/-! DEFINITION. The operations the meanings share: memory access, stack, skip, taking a fatal
condition, the random input, and the stages of a cycle around execute. -/

namespace Sys2Proof.Machine

/-- What a step or a meaning answers. -/
abbrev Result := Host.Outcome State Fault Refusal

/-! ## Fatal conditions -/

/-- Fault entry (spec/60_exceptions.md R149): the record takes the cause and `pc` and `opcode` as
they stand, the halt latch is set, nothing else changes. There is no handler, no vector and no
return (R150): only `State.reset` clears the latch. -/
def raise (f : Fault) (s : State) : State :=
  { s with halted := true, fault := some ⟨f, s.pc, s.opcode⟩ }

/-- The code of R140 (the report has code 0; decision D3, log 31). -/
def Fault.code : Fault → Nat
  | .fetchOutOfBounds => 1
  | .stackUnderflow => 2
  | .stackOverflow => 3
  | .dataAccessOutOfBounds => 4
  | .keyIndexOutOfRange => 5

/-- A handler that may raise: it answers its next state, or the fault is entered in the state
`s` the handler began in, since every check precedes the first write (R73, R151). -/
def complete (s : State) : Except Fault State → Result
  | .ok t => .next t
  | .error f => .next (raise f s)

/-! ## Memory (spec/20_memory.md R36, R44) -/

/-- `MemRead(a, 1)`: the address is a natural number, never wrapped. -/
def State.memRead (s : State) (a : Nat) : Except Fault Byte :=
  if a ≤ 0xFFF then .ok (s.mem.read a) else .error .dataAccessOutOfBounds

/-- `MemWrite(a, 1, v)`. -/
def State.memWrite (s : State) (a : Nat) (v : Byte) : Except Fault State :=
  if a ≤ 0xFFF then .ok { s with mem := s.mem.write a v } else .error .dataAccessOutOfBounds

/-- The whole-range check of R36 for the `m` bytes at `base`, made before any access. With
`m = 0` no access is made and none is checked. -/
def checkRange (base m : Nat) : Except Fault Unit :=
  if 1 ≤ m ∧ base + m - 1 > 0xFFF then .error .dataAccessOutOfBounds else .ok ()

/-- `n` bytes read at rising addresses. -/
def State.readBytes (s : State) : Nat → Nat → Except Fault (List Byte)
  | _, 0 => .ok []
  | a, n + 1 => do
    let b ← s.memRead a
    let bs ← s.readBytes (a + 1) n
    return b :: bs

/-- Bytes written at rising addresses. -/
def State.writeBytes (s : State) : Nat → List Byte → Except Fault State
  | _, [] => .ok s
  | a, b :: bs => do
    let t ← s.memWrite a b
    t.writeBytes (a + 1) bs

/-- A load of `n` bytes: the range is checked first (R36). -/
def State.loadBytes (s : State) (base n : Nat) : Except Fault (List Byte) := do
  checkRange base n
  s.readBytes base n

/-- A store of a list of bytes: the range is checked first, so a store that faults writes no
byte (R36, R151). -/
def State.storeBytes (s : State) (base : Nat) (bs : List Byte) : Except Fault State := do
  checkRange base bs.length
  s.writeBytes base bs

/-! ## Control flow -/

/-- The extra advance of a skip that is taken (R13, R88). -/
def State.skipIf (s : State) (c : Bool) : State := if c then { s with pc := s.pc + 2 } else s

/-- The push and jump of CALL (spec/41_control_flow.md R82): `pc` is already advanced. -/
def State.pushCall (s : State) (target : Word16) : Except Fault State :=
  if h : s.sp.val < 16 then
    .ok { s with
      stack := s.stack.set s.sp.val s.pc h, sp := ⟨s.sp.val + 1, by omega⟩, pc := target }
  else .error .stackOverflow

/-- The pop of RET (R80); the popped entry keeps its value (R15). -/
def State.popReturn (s : State) : Except Fault State :=
  if h : 0 < s.sp.val then
    .ok { s with sp := ⟨s.sp.val - 1, by omega⟩, pc := s.stack[s.sp.val - 1]'(by omega) }
  else .error .stackUnderflow

/-! ## Random input (R157) -/

/-- The random byte of this cycle: a free value (log 5). -/
def State.rnd (s : State) : Byte := Config.freeByte s.draws

/-- The next draw is another free value. -/
def State.nextDraw (s : State) : State := { s with draws := s.draws + 1 }

/-! ## The stages of a cycle (spec/40_cycle.md R70) -/

/-- A cycle begins with no report of its own (R146, log 4). -/
def beginCycle (s : State) : State := { s with report := none }

/-- Stage 1 (R71): the bound is tested before anything is read or advanced; then the big-endian
word is latched and `pc` advanced. -/
def fetch (s : State) : Except Fault State := do
  if s.pc.toNat > 0x0FFE then .error .fetchOutOfBounds
  else
    let hi ← s.memRead s.pc.toNat
    let lo ← s.memRead (s.pc.toNat + 1)
    return { s with opcode := wordOfBytes hi lo, pc := s.pc + 2 }

/-- One timer's tick: down by one unless it is zero (R75). -/
def tickTimer (t : Byte) : Byte := if t = 0 then t else t - 1

/-- Stage 4 (R75): both timers, each on its own. -/
def tick (s : State) : State := { s with DT := tickTimer s.DT, ST := tickTimer s.ST }

/-- After execute: the tick, unless the cycle raised a fatal condition (R75, R149, log 22). -/
def endCycle : Result → Result
  | .next t => .next (if t.halted then t else tick t)
  | .fault f => .fault f
  | .refused r => .refused r

end Sys2Proof.Machine
end

