-- ==== Sys2Proof/Machine/Alu.lean ====
section
/-! DEFINITION. Register, arithmetic, logic, shift and random instructions
(spec/42_alu.md). None of them touches `pc` or can raise. -/

namespace Sys2Proof.Machine

/-- LD Vx, nn (R90). -/
def execLdImm (x : Reg) (nn : Byte) (s : State) : Result := .next (s.setReg x nn)

/-- ADD Vx, nn (R91): modulo 256, no flag. -/
def execAddImm (x : Reg) (nn : Byte) (s : State) : Result :=
  .next (s.setReg x (BitVec.ofNat 8 ((s.reg x).toNat + nn.toNat)))

/-- LD Vx, Vy (R92). -/
def execLdReg (x y : Reg) (s : State) : Result := .next (s.setReg x (s.reg y))

/-- OR Vx, Vy (R93). -/
def execOr (x y : Reg) (s : State) : Result := .next (s.setReg x (s.reg x ||| s.reg y))

/-- AND Vx, Vy (R94). -/
def execAnd (x y : Reg) (s : State) : Result := .next (s.setReg x (s.reg x &&& s.reg y))

/-- XOR Vx, Vy (R95). -/
def execXor (x y : Reg) (s : State) : Result := .next (s.setReg x (s.reg x ^^^ s.reg y))

/-- ADD Vx, Vy (R96). -/
def execAddReg (x y : Reg) (s : State) : Result :=
  let a := s.reg x
  let b := s.reg y
  .next (s.setRegFlag x (BitVec.ofNat 8 (a.toNat + b.toNat)) (addCarry a b))

/-- SUB Vx, Vy (R97): minuend `V[x]`, subtrahend `V[y]`. -/
def execSub (x y : Reg) (s : State) : Result :=
  let a := s.reg x
  let b := s.reg y
  .next (s.setRegFlag x (BitVec.ofInt 8 (a.toNat - b.toNat)) (noBorrow a b))

/-- SUBN Vx, Vy (R99): minuend `V[y]`, subtrahend `V[x]`. -/
def execSubn (x y : Reg) (s : State) : Result :=
  let a := s.reg x
  let b := s.reg y
  .next (s.setRegFlag x (BitVec.ofInt 8 (b.toNat - a.toNat)) (noBorrow b a))

/-- SHR Vx, Vy (R98): the source is `V[y]`. -/
def execShr (x y : Reg) (s : State) : Result :=
  let b := s.reg y
  .next (s.setRegFlag x (b >>> 1) (shiftedOutLow b))

/-- SHL Vx, Vy (R100): the source is `V[y]`. -/
def execShl (x y : Reg) (s : State) : Result :=
  let b := s.reg y
  .next (s.setRegFlag x (b <<< 1) (shiftedOutHigh b))

/-- RND Vx, nn (R101): the cycle's free byte, masked; the only consumer of a draw. -/
def execRnd (x : Reg) (nn : Byte) (s : State) : Result :=
  .next (s.nextDraw.setReg x (s.rnd &&& nn))

end Sys2Proof.Machine
end

