-- ==== Sys2Proof/Machine/ControlFlow.lean ====
section
/-! DEFINITION. The control-flow instructions (spec/41_control_flow.md). In every meaning `s.pc`
is the value after fetch advanced it by 2 (R71). -/

namespace Sys2Proof.Machine

/-- RET (R80). -/
def execRet (s : State) : Result := complete s s.popReturn

/-- JP nnn (R81): any target is accepted, unchecked (R88). -/
def execJp (nnn : Addr12) (s : State) : Result := .next { s with pc := zextAddr nnn }

/-- CALL nnn (R82). -/
def execCall (nnn : Addr12) (s : State) : Result := complete s (s.pushCall (zextAddr nnn))

/-- SE Vx, nn (R83). -/
def execSeImm (x : Reg) (nn : Byte) (s : State) : Result :=
  .next (s.skipIf (decide (s.reg x = nn)))

/-- SNE Vx, nn (R84). -/
def execSneImm (x : Reg) (nn : Byte) (s : State) : Result :=
  .next (s.skipIf (decide (s.reg x ≠ nn)))

/-- SE Vx, Vy (R85): the low nibble of the word plays no part (R55). -/
def execSeReg (x y : Reg) (s : State) : Result :=
  .next (s.skipIf (decide (s.reg x = s.reg y)))

/-- SNE Vx, Vy (R86): the low nibble of the word plays no part (R55). -/
def execSneReg (x y : Reg) (s : State) : Result :=
  .next (s.skipIf (decide (s.reg x ≠ s.reg y)))

/-- JP Vx, nn (R87). -/
def execJpOff (x : Reg) (nn : Byte) (s : State) : Result :=
  .next { s with pc := jumpOffTarget x nn s }

end Sys2Proof.Machine
end

