-- ==== Sys2Proof/Machine/Display.lean ====
section
/-! DEFINITION. The framebuffer and the display instructions (spec/44_display.md).
PRESUMED: the bit and row order of a sprite is the spec's own, from general knowledge (R122,
log 11). -/

namespace Sys2Proof.Machine

/-- `disp[row][col]` (R20); a pixel outside the frame reads as clear. -/
def Frame.pixel (d : Frame) (row col : Nat) : Bool :=
  if h : row ≤ 31 ∧ col ≤ 63 then d[row][col] else false

/-- `disp[row][col] <- disp[row][col] ^ 1`; a pixel outside the frame is clipped (R121). -/
def Frame.toggle (d : Frame) (row col : Nat) : Frame :=
  if h : row ≤ 31 ∧ col ≤ 63 then d.set row (d[row].set col (!d[row][col])) else d

/-- One set bit of a sprite drawn at `(row, col)`: a set pixel that is turned off is a hit (R121). -/
def drawPixel (acc : Frame × Bool) (row col : Nat) : Frame × Bool :=
  (acc.1.toggle row col, acc.2 || acc.1.pixel row col)

/-- One sprite byte drawn at `row` from column `X` on, bit 7 leftmost (R122). -/
def drawByte (b : Byte) (row X : Nat) (acc : Frame × Bool) : Frame × Bool :=
  (List.range 8).foldl
    (fun acc c => if b.getLsbD (7 - c) then drawPixel acc row (X + c) else acc) acc

/-- The sprite's bytes drawn downward from `row` (R121); the flag says whether a pixel was
turned off. -/
def drawSprite : List Byte → Nat → Nat → Frame × Bool → Frame × Bool
  | [], _, _, acc => acc
  | b :: bs, row, X, acc => drawSprite bs (row + 1) X (drawByte b row X acc)

/-- The column a draw starts at: `V[x] mod 64` (R121). -/
def originCol (b : Byte) : Nat := b.toNat % 64

/-- The row a draw starts at: `V[y] mod 32` (R121). -/
def originRow (b : Byte) : Nat := b.toNat % 32

/-- CLS (R120). -/
def execCls (s : State) : Result := .next { s with disp := Frame.blank }

/-- DRW Vx, Vy, n (R121): all `n` bytes are read, those of clipped rows too (decision D24,
log 24); VF is written last, on every execution that does not fault. -/
def execDrw (x y : Reg) (n : Nibble) (s : State) : Result :=
  complete s (do
    let bs ← s.loadBytes s.I.toNat n.toNat
    let drawn := drawSprite bs (originRow (s.reg y)) (originCol (s.reg x)) (s.disp, false)
    return State.setFlag { s with disp := drawn.1 } drawn.2)

end Sys2Proof.Machine
end

