-- ==== Sys2Proof/Machine/IndexMemory.lean ====
section
/-! DEFINITION. Index-register and memory instructions (spec/43_index_memory.md). The one data
addressing mode is `I` plus a counted offset, unwrapped (R116); `I` itself is never changed by a
memory access (decision D19, log 23). -/

namespace Sys2Proof.Machine

/-- LD I, nnn (R110). -/
def execLdI (nnn : Addr12) (s : State) : Result := .next { s with I := zextAddr nnn }

/-- ADD I, Vx (R111): the addend is read before VF is written. -/
def execAddI (x : Reg) (s : State) : Result :=
  let a := s.reg x
  let sum := BitVec.ofNat 16 (s.I.toNat + a.toNat)
  .next (State.setFlag { s with I := sum } (indexOverflow s.I a))

/-- LD F, Vx (R112). -/
def execLdF (x : Reg) (s : State) : Result :=
  .next { s with I := glyphAddr (digitOf (s.reg x)) }

/-- LD B, Vx (R113). -/
def execLdB (x : Reg) (s : State) : Result :=
  complete s (s.storeBytes s.I.toNat (decimalDigits (s.reg x)))

/-- LD [I], Vx (R114). -/
def execStoreRegs (x : Reg) (s : State) : Result :=
  complete s (s.storeBytes s.I.toNat (s.regsUpTo x))

/-- LD Vx, [I] (R115). -/
def execLoadRegs (x : Reg) (s : State) : Result :=
  complete s (do
    let bs ← s.loadBytes s.I.toNat (x.val + 1)
    return s.setRegsFrom 0 bs)

end Sys2Proof.Machine
end

