-- ==== Sys2Proof/Machine/KeysTimers.lean ====
section
/-! DEFINITION. Key and timer instructions (spec/45_keys_timers.md). The tick of R75 follows in
the same cycle, in `endCycle`. -/

namespace Sys2Proof.Machine

/-- SKP Vx (R130): the key is named by the content of `V[x]`. -/
def execSkp (x : Reg) (s : State) : Result :=
  complete s (do
    let k ← keyIndex (s.reg x)
    return s.skipIf (s.keyDown k))

/-- SKNP Vx (R131). -/
def execSknp (x : Reg) (s : State) : Result :=
  complete s (do
    let k ← keyIndex (s.reg x)
    return s.skipIf (!s.keyDown k))

/-- LD Vx, K (R133): level-sensitive (log 17); with no key down the instruction rewinds `pc` to
itself and is fetched again. -/
def execLdVxK (x : Reg) (s : State) : Result :=
  match s.lowestKey with
  | some k => .next (s.setReg x (BitVec.ofNat 8 k.val))
  | none => .next { s with pc := s.pc - 2 }

/-- LD Vx, DT (R132): the value before this cycle's tick. -/
def execLdVxDT (x : Reg) (s : State) : Result := .next (s.setReg x s.DT)

/-- LD DT, Vx (R134). -/
def execLdDTVx (x : Reg) (s : State) : Result := .next { s with DT := s.reg x }

/-- LD ST, Vx (R135). -/
def execLdSTVx (x : Reg) (s : State) : Result := .next { s with ST := s.reg x }

end Sys2Proof.Machine
end

