-- ==== Sys2Proof/Machine/Unknown.lean ====
section
/-! DEFINITION. The unknown-opcode handler (spec/40_cycle.md R74): one report, no other effect. -/

namespace Sys2Proof.Machine

/-- UNKNOWN (R74, R146): the report carries `pc` and `opcode` as they stand. -/
def execUnknown (s : State) : Result := .next { s with report := some ⟨s.pc, s.opcode⟩ }

end Sys2Proof.Machine
end

