-- ==== Sys2Proof/Machine/Step.lean ====
section
/-! DEFINITION. One step: one whole instruction cycle (spec/40_cycle.md R70), and the placing of a
word where the next cycle fetches it. -/

namespace Sys2Proof.Machine

/-- Fetch, decode, execute, tick (R70, R76). A fetch that faults ends the cycle with nothing read
or advanced (R141). -/
def runCycle (s : State) : Host.Outcome State Fault Refusal :=
  match fetch s with
  | .ok t => endCycle (exec (decodeWord t.opcode) t)
  | .error f => .next (raise f s)

/-- A halted core steps to itself (R77); any other runs one cycle. -/
def step (s : State) : Host.Outcome State Fault Refusal :=
  if s.halted then .next s else runCycle (beginCycle s)

/-- `s` with the table word `w` of `nbits` bits stored where the next fetch reads it, high byte at
the lower address (R32). The fetch needs a core that is not halted and a `pc` inside the fetch
bound: a halted core is set running, a `pc` above `0x0FFE` is set to `0x200` (log 28). -/
def State.withFetchWord (s : State) (nbits w : Nat) : State :=
  let word := BitVec.ofNat 16 (w % 2 ^ nbits)
  let pc : Word16 := if s.pc.toNat ≤ 0x0FFE then s.pc else 0x0200
  { s with
    mem := (s.mem.write pc.toNat (highByte word)).write (pc.toNat + 1) (lowByte word)
    pc := pc
    halted := false }

end Sys2Proof.Machine
end

