-- ==== Sys2Proof/Machine/HostPort.lean ====
section
/-! DEFINITION. What the Host Shell may do between two cycles, and what it reads
(spec/60_exceptions.md R154 to R158, R162; spec/70_reset_and_hazards.md R170 to R173). -/

namespace Sys2Proof.Machine

/-- Why a program is not loaded. -/
inductive LoadError where
  /-- The image is longer than 3584 bytes (R172). -/
  | tooLarge
  /-- The source cannot be read (R172); how the host finds that out is out of scope (R4). -/
  | unreadable
deriving DecidableEq, Repr

/-- The copy of program load (R172): all or nothing; no register, `pc` or display is touched. When
the host may load is `Session.load`. -/
def State.load (s : State) (rom : List Byte) : Except LoadError State :=
  if rom.length > Config.maxRom then .error .tooLarge
  else .ok { s with mem := s.mem.writeList Config.progBase rom }

/-- Reset, at any time (R170): the reset state. The model's own draw counter goes on, so that the
draws after a reset are other free values than those before it (log 6). -/
def State.hostReset (s : State) : State := { State.reset with draws := s.draws }

/-- The host writes the key latch, any pattern, between cycles (R154). -/
def State.setKeys (s : State) (keys : Vector Bool 16) : State := { s with key := keys }

/-- The tone signal (R156). -/
def State.tone (s : State) : Bool := decide (s.ST ≠ 0)

/-! ## The order of the host's operations (R158, R173)
How far the host has come is no field of the machine (R10, R27): it stands beside State (log 29). -/

/-- How far the boot sequence of R173 has come since the last reset. -/
inductive Stage where
  /-- Reset done, no load tried yet: a load, if only of the empty image, comes before any step. -/
  | atReset
  /-- A program is loaded: the core may be stepped, and no second load exists. -/
  | loaded
  /-- The load failed with LoadError: "the core must not be stepped" (R172). -/
  | loadRefused
deriving DecidableEq, Repr

/-- The core under its host. -/
structure Session where
  core : State
  stage : Stage
deriving DecidableEq, Repr

/-- Right after the first reset. -/
def Session.start : Session := ⟨State.reset, .atReset⟩

/-- What the host may do (R158). -/
inductive HostMove where
  | reset
  /-- Load from a source: its bytes, or `none` for a source that cannot be read (R172). -/
  | load (source : Option (List Byte))
  | setKeys (keys : Vector Bool 16)
  | step
deriving DecidableEq, Repr

/-- A load from a source that may not be readable (R172). -/
def State.loadFrom (s : State) : Option (List Byte) → Except LoadError State
  | some rom => s.load rom
  | none => .error .unreadable

/-- Load is a move once per reset, before the first step (R172, decision D18); a LoadError leaves
the core as it was and bars it from being stepped. There is no other load (U8: "the model offers
no such move"). -/
def Session.load (h : Session) (source : Option (List Byte)) : Option Session :=
  match h.stage with
  | .atReset =>
    match h.core.loadFrom source with
    | .ok t => some ⟨t, .loaded⟩
    | .error _ => some ⟨h.core, .loadRefused⟩
  | .loaded | .loadRefused => none

/-- A step is a move after a load that succeeded (R173, U8). -/
def Session.step (h : Session) : Option Session :=
  match h.stage with
  | .loaded =>
    match Machine.step h.core with
    | .next t => some ⟨t, .loaded⟩
    | .fault _ => none
    | .refused _ => none
  | .atReset | .loadRefused => none

/-- The session after a move, where the host has that move: reset and the key latch at any time
between cycles, load and step in the order of R173. -/
def Session.move (h : Session) : HostMove → Option Session
  | .reset => some ⟨h.core.hostReset, .atReset⟩
  | .load source => h.load source
  | .setKeys keys => some { h with core := h.core.setKeys keys }
  | .step => h.step

end Sys2Proof.Machine
end

