-- ==== Sys2Proof/Safety.lean ====
section
/-! DEFINITION. The terms the claims use: the invariant of the core (spec/10_state.md R24), what a
run is, what a frame says, and the spec's own tables about all instructions (R12, R13, R140). -/

namespace Sys2Proof.Machine

/-- Every live stack entry is the address after a CALL that was fetched, so at most `0x1000`
(R15, R80: "always at most `0x1000`"). -/
abbrev State.liveEntriesBounded (s : State) : Prop :=
  ∀ k : Fin 16, k.val < s.sp.val → s.stack[k.val].toNat ≤ 0x1000

/-- What holds in every reachable state: memory canonical (log 27), `pc <= 0x1002` (R13, R24), the
live stack entries bounded (R15), and two clauses that are the model's own choice: a fault record
is there exactly when the core is halted (log 7; R23 and R25 give the record no content in a
running core) and a halted core has no report (log 4). `0 <= sp <= 16` and the 8-bit ranges of R24
are in the types of State. -/
abbrev State.Inv (s : State) : Prop :=
  s.mem.wf = true ∧ s.pc.toNat ≤ 0x1002 ∧ s.liveEntriesBounded ∧
    s.halted = s.fault.isSome ∧ (s.halted = true → s.report = none)

/-- The sessions of the core under its host: the first reset, then any moves the host has (R158). -/
inductive Reachable : Session → Prop
  | start : Reachable Session.start
  | move {h k : Session} (m : HostMove) : Reachable h → h.move m = some k → Reachable k

/-- A run is going on: no fatal condition has halted the core (R23). -/
def State.running (s : State) : Prop := s.halted = false

/-! ## Frames -/

/-- The fields of State, by name. -/
inductive Field where
  | mem | pc | I | V | stack | sp | DT | ST | key | disp | opcode | halted | fault | report | draws
deriving DecidableEq, Repr

/-- A field has the same content in both states; memory is compared byte by byte. -/
def SameField (s t : State) : Field → Prop
  | .mem => ∀ a, t.mem.read a = s.mem.read a
  | .pc => t.pc = s.pc
  | .I => t.I = s.I
  | .V => t.V = s.V
  | .stack => t.stack = s.stack
  | .sp => t.sp = s.sp
  | .DT => t.DT = s.DT
  | .ST => t.ST = s.ST
  | .key => t.key = s.key
  | .disp => t.disp = s.disp
  | .opcode => t.opcode = s.opcode
  | .halted => t.halted = s.halted
  | .fault => t.fault = s.fault
  | .report => t.report = s.report
  | .draws => t.draws = s.draws

/-- Every field but those listed is unchanged. -/
def FrameBut (changed : List Field) (s t : State) : Prop := ∀ f, f ∉ changed → SameField s t f

/-- Every register but those listed is unchanged. -/
def RegsBut (written : List Reg) (s t : State) : Prop := ∀ r, r ∉ written → t.reg r = s.reg r

/-- Every byte of memory outside the `m` bytes at `base` reads as before. -/
def BytesBut (base m : Nat) (s t : State) : Prop :=
  ∀ a, (a < base ∨ base + m ≤ a) → t.mem.read a = s.mem.read a

/-- The fatal condition `c` was entered (R149) and nothing else happened. -/
def FaultsWith (c : Fault) (s t : State) : Prop :=
  t.halted = true ∧ t.fault = some ⟨c, s.pc, s.opcode⟩ ∧ FrameBut [.halted, .fault] s t

/-! ## The cycle -/

/-- The word at `pc`, high byte at the lower address (R32). -/
def State.wordAtPc (s : State) : Word16 :=
  wordOfBytes (s.mem.read s.pc.toNat) (s.mem.read (s.pc.toNat + 1))

/-- What execute sees after a fetch that succeeds (R71): no report yet, the word latched, `pc`
advanced by 2. -/
def State.fetched (s : State) : State :=
  { s with report := none, opcode := s.wordAtPc, pc := s.pc + 2 }

/-! ## The spec's tables about all instructions -/

/-- The seven instructions that write VF as a flag (R12). -/
def setsFlag : Instr → Bool
  | .addReg _ _ | .sub _ _ | .shr _ _ | .subn _ _ | .shl _ _ | .drw _ _ _ | .addI _ => true
  | _ => false

/-- The registers an instruction names as its destination (R11, rules of 41 to 45). -/
def destRegs : Instr → List Reg
  | .ldImm x _ | .addImm x _ | .ldReg x _ | .or x _ | .and x _ | .xor x _ | .addReg x _
  | .sub x _ | .shr x _ | .subn x _ | .shl x _ | .rnd x _ | .ldVxDT x | .ldVxK x => [x]
  | .loadRegs x => (List.finRange 16).filter (fun r => r ≤ x)
  | _ => []

/-- The fatal condition an instruction meets in a state, if it meets one (R140). -/
def faultOf (s : State) : Instr → Option Fault
  | .ret => if s.sp.val = 0 then some .stackUnderflow else none
  | .call _ => if s.sp.val = 16 then some .stackOverflow else none
  | .drw _ _ n =>
    if 1 ≤ n.toNat ∧ s.I.toNat + n.toNat - 1 > 0xFFF then some .dataAccessOutOfBounds else none
  | .ldB _ => if s.I.toNat + 2 > 0xFFF then some .dataAccessOutOfBounds else none
  | .storeRegs x => if s.I.toNat + x.val > 0xFFF then some .dataAccessOutOfBounds else none
  | .loadRegs x => if s.I.toNat + x.val > 0xFFF then some .dataAccessOutOfBounds else none
  | .skp x => if (s.reg x).toNat > 0x0F then some .keyIndexOutOfRange else none
  | .sknp x => if (s.reg x).toNat > 0x0F then some .keyIndexOutOfRange else none
  | _ => none

/-- Is key `k` of the latch down, for a number that may name none? -/
def keyNumberDown (s : State) (k : Nat) : Prop := ∃ j : Fin 16, j.val = k ∧ s.keyDown j = true

/-- What `pc` is after an instruction that meets no fatal condition, given the advanced `pc`
(the table of R13). -/
def PcAfter (s t : State) : Instr → Prop
  | .jp nnn | .call nnn => t.pc.toNat = nnn.toNat
  | .ret => ∀ k : Fin 16, k.val + 1 = s.sp.val → t.pc = s.stack[k.val]
  | .jpOff x nn => t.pc.toNat = nn.toNat + (s.reg x).toNat
  | .seImm x nn => (s.reg x = nn ∧ t.pc = s.pc + 2) ∨ (s.reg x ≠ nn ∧ t.pc = s.pc)
  | .sneImm x nn => (s.reg x ≠ nn ∧ t.pc = s.pc + 2) ∨ (s.reg x = nn ∧ t.pc = s.pc)
  | .seReg x y _ => (s.reg x = s.reg y ∧ t.pc = s.pc + 2) ∨ (s.reg x ≠ s.reg y ∧ t.pc = s.pc)
  | .sneReg x y _ => (s.reg x ≠ s.reg y ∧ t.pc = s.pc + 2) ∨ (s.reg x = s.reg y ∧ t.pc = s.pc)
  | .skp x => (keyNumberDown s (s.reg x).toNat ∧ t.pc = s.pc + 2) ∨
      (¬ keyNumberDown s (s.reg x).toNat ∧ t.pc = s.pc)
  | .sknp x => (¬ keyNumberDown s (s.reg x).toNat ∧ t.pc = s.pc + 2) ∨
      (keyNumberDown s (s.reg x).toNat ∧ t.pc = s.pc)
  | .ldVxK _ => ((∃ k, s.keyDown k = true) ∧ t.pc = s.pc) ∨
      ((∀ k, s.keyDown k = false) ∧ t.pc = s.pc - 2)
  | _ => t.pc = s.pc

/-- The fields an instruction may write (rules R13 to R23 and the instruction rules); an
instruction with a fatal condition may write the halt latch and the fault record. -/
def mayWrite : Instr → List Field
  | .cls => [.disp]
  | .ret => [.pc, .sp, .halted, .fault]
  | .jp _ | .jpOff _ _ | .seImm _ _ | .sneImm _ _ | .seReg _ _ _ | .sneReg _ _ _ => [.pc]
  | .call _ => [.pc, .sp, .stack, .halted, .fault]
  | .ldImm _ _ | .addImm _ _ | .ldReg _ _ | .or _ _ | .and _ _ | .xor _ _ | .addReg _ _
  | .sub _ _ | .shr _ _ | .subn _ _ | .shl _ _ | .ldVxDT _ => [.V]
  | .rnd _ _ => [.V, .draws]
  | .ldI _ | .ldF _ => [.I]
  | .addI _ => [.I, .V]
  | .drw _ _ _ => [.V, .disp, .halted, .fault]
  | .skp _ | .sknp _ => [.pc, .halted, .fault]
  | .ldVxK _ => [.V, .pc]
  | .ldDTVx _ => [.DT]
  | .ldSTVx _ => [.ST]
  | .ldB _ | .storeRegs _ => [.mem, .halted, .fault]
  | .loadRegs _ => [.V, .halted, .fault]
  | .unknown _ => [.report]

/-- Two states that agree but for the dead entries of the stack, those at `sp` and above (R15). -/
def AgreeButDeadEntries (s u : State) : Prop :=
  u = { s with stack := u.stack } ∧
    ∀ k : Fin 16, k.val < s.sp.val → u.stack[k.val] = s.stack[k.val]

/-- Is the pixel `(row, col)` one that the sprite of DRW Vx, Vy, n lights? Byte `I + r` is row
`Y + r`, bit 7 at column `X` (R122; the orientation is the spec's own, log 11). -/
def spriteLit (s : State) (x y : Reg) (n : Nibble) (row col : Nat) : Bool :=
  let X := (s.reg x).toNat % 64
  let Y := (s.reg y).toNat % 32
  decide (Y ≤ row ∧ row < Y + n.toNat ∧ X ≤ col ∧ col < X + 8) &&
    (s.mem.read (s.I.toNat + (row - Y))).getLsbD (7 - (col - X))

end Sys2Proof.Machine
end

