-- ==== Sys2Proof/Certificates/Slice0/Obligations.lean ====
section
/-! DEFINITION. What is claimed of the model: statements for the provers. `exec` is stated on the
state execute sees, `pc` already advanced (R71); a claim about a whole cycle is about `step`. -/

open Sys2Proof Sys2Proof.Machine

/-! ## Register, arithmetic, logic, shift, random (spec/42_alu.md) -/

/-- R90: "Direct assignment." -/
def Obligations.LoadImmediateWritesOnlyVx : Prop :=
  ∀ (x : Reg) (nn : Byte) (s : State), ∃ t, exec (.ldImm x nn) s = .next t ∧
    t.reg x = nn ∧ RegsBut [x] s t ∧ FrameBut [.V] s t

/-- R91: 8-bit wraparound addition that does not touch the flag register. -/
def Obligations.AddImmediateWrapsWithoutFlag : Prop :=
  ∀ (x : Reg) (nn : Byte) (s : State), ∃ t, exec (.addImm x nn) s = .next t ∧
    (t.reg x).toNat = ((s.reg x).toNat + nn.toNat) % 256 ∧ RegsBut [x] s t ∧ FrameBut [.V] s t

/-- R92 to R95: copy, OR, AND, XOR, bit by bit, with no flag. -/
def Obligations.CopyAndBitwiseWriteOnlyVx : Prop :=
  ∀ (x y : Reg) (s : State),
    (∃ t, exec (.ldReg x y) s = .next t ∧ t.reg x = s.reg y ∧
      RegsBut [x] s t ∧ FrameBut [.V] s t) ∧
    (∃ t, exec (.or x y) s = .next t ∧
      (∀ k < 8, (t.reg x).getLsbD k = ((s.reg x).getLsbD k || (s.reg y).getLsbD k)) ∧
      RegsBut [x] s t ∧ FrameBut [.V] s t) ∧
    (∃ t, exec (.and x y) s = .next t ∧
      (∀ k < 8, (t.reg x).getLsbD k = ((s.reg x).getLsbD k && (s.reg y).getLsbD k)) ∧
      RegsBut [x] s t ∧ FrameBut [.V] s t) ∧
    (∃ t, exec (.xor x y) s = .next t ∧
      (∀ k < 8, (t.reg x).getLsbD k = ((s.reg x).getLsbD k ^^ (s.reg y).getLsbD k)) ∧
      RegsBut [x] s t ∧ FrameBut [.V] s t)

/-- R96: the sum modulo 256, VF the carry. The destination VF is `FlagWinsWhenVFIsTheDestination`. -/
def Obligations.AddRegistersSetsCarry : Prop :=
  ∀ (x y : Reg) (s : State), x ≠ Reg.flag → ∃ t, exec (.addReg x y) s = .next t ∧
    (t.reg x).toNat = ((s.reg x).toNat + (s.reg y).toNat) % 256 ∧
    t.reg Reg.flag = (if (s.reg x).toNat + (s.reg y).toNat > 255 then 0x01 else 0x00) ∧
    RegsBut [x, Reg.flag] s t ∧ FrameBut [.V] s t

/-- R97, R99: the difference modulo 256, VF 1 exactly when the minuend is strictly greater (the
spec's resolution C3, log 20). The destination VF is `FlagWinsWhenVFIsTheDestination`. -/
def Obligations.SubtractionsSetStrictFlag : Prop :=
  ∀ (x y : Reg) (s : State), x ≠ Reg.flag →
    (∃ t, exec (.sub x y) s = .next t ∧
      (t.reg x).toNat = ((s.reg x).toNat + 256 - (s.reg y).toNat) % 256 ∧
      t.reg Reg.flag = (if (s.reg x).toNat > (s.reg y).toNat then 0x01 else 0x00) ∧
      RegsBut [x, Reg.flag] s t ∧ FrameBut [.V] s t) ∧
    (∃ t, exec (.subn x y) s = .next t ∧
      (t.reg x).toNat = ((s.reg y).toNat + 256 - (s.reg x).toNat) % 256 ∧
      t.reg Reg.flag = (if (s.reg y).toNat > (s.reg x).toNat then 0x01 else 0x00) ∧
      RegsBut [x, Reg.flag] s t ∧ FrameBut [.V] s t)

/-- R98, R100: the source is `V[y]`; VF receives the bit shifted out. The destination VF is
`FlagWinsWhenVFIsTheDestination`. -/
def Obligations.ShiftsReadVyAndKeepTheBitShiftedOut : Prop :=
  ∀ (x y : Reg) (s : State), x ≠ Reg.flag →
    (∃ t, exec (.shr x y) s = .next t ∧ (t.reg x).toNat = (s.reg y).toNat / 2 ∧
      (t.reg Reg.flag).toNat = (s.reg y).toNat % 2 ∧
      RegsBut [x, Reg.flag] s t ∧ FrameBut [.V] s t) ∧
    (∃ t, exec (.shl x y) s = .next t ∧ (t.reg x).toNat = 2 * (s.reg y).toNat % 256 ∧
      (t.reg Reg.flag).toNat = (s.reg y).toNat / 128 ∧
      RegsBut [x, Reg.flag] s t ∧ FrameBut [.V] s t)

/-- 42_alu.md section 1 (R108, the spec's decision D27, log 21): with `x = 0xF` the result is lost
and VF holds the flag, computed from the operands as they were. -/
def Obligations.FlagWinsWhenVFIsTheDestination : Prop :=
  ∀ (y : Reg) (s : State),
    (∃ t, exec (.addReg Reg.flag y) s = .next t ∧ (t.reg Reg.flag).toNat =
      (if (s.reg Reg.flag).toNat + (s.reg y).toNat > 255 then 1 else 0) ∧
      RegsBut [Reg.flag] s t ∧ FrameBut [.V] s t) ∧
    (∃ t, exec (.sub Reg.flag y) s = .next t ∧ (t.reg Reg.flag).toNat =
      (if (s.reg Reg.flag).toNat > (s.reg y).toNat then 1 else 0) ∧
      RegsBut [Reg.flag] s t ∧ FrameBut [.V] s t) ∧
    (∃ t, exec (.subn Reg.flag y) s = .next t ∧ (t.reg Reg.flag).toNat =
      (if (s.reg y).toNat > (s.reg Reg.flag).toNat then 1 else 0) ∧
      RegsBut [Reg.flag] s t ∧ FrameBut [.V] s t) ∧
    (∃ t, exec (.shr Reg.flag y) s = .next t ∧
      (t.reg Reg.flag).toNat = (s.reg y).toNat % 2 ∧
      RegsBut [Reg.flag] s t ∧ FrameBut [.V] s t) ∧
    (∃ t, exec (.shl Reg.flag y) s = .next t ∧
      (t.reg Reg.flag).toNat = (s.reg y).toNat / 128 ∧
      RegsBut [Reg.flag] s t ∧ FrameBut [.V] s t)

/-- R101, with the free byte of log 5: whatever its value, it is masked; one draw is consumed. -/
def Obligations.RandomIsTheFreeByteMasked : Prop :=
  ∀ (x : Reg) (nn : Byte) (s : State), ∃ t, exec (.rnd x nn) s = .next t ∧
    t.reg x = Config.freeByte s.draws &&& nn ∧
    (∀ k < 8, (t.reg x).getLsbD k = true → nn.getLsbD k = true) ∧
    t.draws = s.draws + 1 ∧ RegsBut [x] s t ∧ FrameBut [.V, .draws] s t

/-! ## Control flow (spec/41_control_flow.md) -/

/-- R81: any target is accepted. -/
def Obligations.JumpLoadsPc : Prop :=
  ∀ (nnn : Addr12) (s : State), ∃ t, exec (.jp nnn) s = .next t ∧
    t.pc.toNat = nnn.toNat ∧ FrameBut [.pc] s t

/-- R87, by the spec's decision D30 (log 19): the target is `nn + V[x]`, never above `0x1FE`. -/
def Obligations.JumpWithOffsetAddsTwoBytes : Prop :=
  ∀ (x : Reg) (nn : Byte) (s : State), ∃ t, exec (.jpOff x nn) s = .next t ∧
    t.pc.toNat = nn.toNat + (s.reg x).toNat ∧ t.pc.toNat ≤ 0x01FE ∧ FrameBut [.pc] s t

/-- R83 to R86: the skip is taken exactly when the comparison holds; the low nibble of the
register forms plays no part. -/
def Obligations.SkipsCompareAndAdvanceByTwo : Prop :=
  ∀ (x y : Reg) (nn : Byte) (ignored : Nibble) (s : State),
    (∃ t, exec (.seImm x nn) s = .next t ∧
      t.pc = (if s.reg x = nn then s.pc + 2 else s.pc) ∧ FrameBut [.pc] s t) ∧
    (∃ t, exec (.sneImm x nn) s = .next t ∧
      t.pc = (if s.reg x = nn then s.pc else s.pc + 2) ∧ FrameBut [.pc] s t) ∧
    (∃ t, exec (.seReg x y ignored) s = .next t ∧
      t.pc = (if s.reg x = s.reg y then s.pc + 2 else s.pc) ∧ FrameBut [.pc] s t) ∧
    (∃ t, exec (.sneReg x y ignored) s = .next t ∧
      t.pc = (if s.reg x = s.reg y then s.pc else s.pc + 2) ∧ FrameBut [.pc] s t)

/-- R82: push the advanced `pc`, count it, jump; a full stack is fatal and changes neither `sp`
nor the stack nor `pc`. -/
def Obligations.CallPushesOrOverflows : Prop :=
  ∀ (nnn : Addr12) (s : State),
    (s.sp.val < 16 → ∃ t, exec (.call nnn) s = .next t ∧
      t.pc.toNat = nnn.toNat ∧ t.sp.val = s.sp.val + 1 ∧
      (∀ k : Fin 16, t.stack[k.val] = if k.val = s.sp.val then s.pc else s.stack[k.val]) ∧
      FrameBut [.pc, .sp, .stack] s t) ∧
    (s.sp.val = 16 → ∃ t, exec (.call nnn) s = .next t ∧ FaultsWith .stackOverflow s t)

/-- R80: pop into `pc`, the popped entry keeping its value; an empty stack is fatal and changes
neither `sp` nor the stack nor `pc`. -/
def Obligations.ReturnPopsOrUnderflows : Prop :=
  ∀ s : State,
    (0 < s.sp.val → ∃ t, exec .ret s = .next t ∧
      t.sp.val + 1 = s.sp.val ∧ (∀ k : Fin 16, k.val + 1 = s.sp.val → t.pc = s.stack[k.val]) ∧
      FrameBut [.pc, .sp] s t) ∧
    (s.sp.val = 0 → ∃ t, exec .ret s = .next t ∧ FaultsWith .stackUnderflow s t)

/-- 95_test_vectors.md S6 (the stack is the spec's decision D17, log 30): a CALL and, after whatever leaves the stack as the CALL left it, a RET
restore `pc` and `sp`. -/
def Obligations.CallThenReturnRoundTrips : Prop :=
  ∀ (nnn : Addr12) (s t u : State), s.sp.val < 16 → exec (.call nnn) s = .next t →
    u.sp = t.sp → u.stack = t.stack →
    ∃ v, exec .ret u = .next v ∧ v.pc = s.pc ∧ v.sp = s.sp

/-! ## Index register and memory (spec/43_index_memory.md) -/

/-- R110. -/
def Obligations.LoadIndexAssigns : Prop :=
  ∀ (nnn : Addr12) (s : State), ∃ t, exec (.ldI nnn) s = .next t ∧
    t.I.toNat = nnn.toNat ∧ FrameBut [.I] s t

/-- R111: the sum modulo 2^16, VF 1 exactly when it exceeded `0xFFFF`. -/
def Obligations.AddToIndexSetsOverflowFlag : Prop :=
  ∀ (x : Reg) (s : State), ∃ t, exec (.addI x) s = .next t ∧
    t.I.toNat = (s.I.toNat + (s.reg x).toNat) % 65536 ∧
    t.reg Reg.flag = (if s.I.toNat + (s.reg x).toNat > 0xFFFF then 0x01 else 0x00) ∧
    RegsBut [Reg.flag] s t ∧ FrameBut [.I, .V] s t

/-- R112, by the spec's decision D28 (log 18): the glyph of the low nibble. -/
def Obligations.FontAddressOfTheLowNibble : Prop :=
  ∀ (x : Reg) (s : State), ∃ t, exec (.ldF x) s = .next t ∧
    t.I.toNat = 0x050 + 5 * ((s.reg x).toNat % 16) ∧ FrameBut [.I] s t

/-- R113: hundreds, tens, ones at `I`, `I + 1`, `I + 2`, and no other byte; past `0xFFF` it is
fatal and stores nothing (the spec's decision D5, log 14). `I` is unchanged (D19, log 23). -/
def Obligations.DecimalDigitsAreStored : Prop :=
  ∀ (x : Reg) (s : State), s.mem.wf = true →
    (s.I.toNat + 2 ≤ 0xFFF → ∃ t, exec (.ldB x) s = .next t ∧
      (t.mem.read s.I.toNat).toNat = (s.reg x).toNat / 100 ∧
      (t.mem.read (s.I.toNat + 1)).toNat = (s.reg x).toNat / 10 % 10 ∧
      (t.mem.read (s.I.toNat + 2)).toNat = (s.reg x).toNat % 10 ∧
      100 * (t.mem.read s.I.toNat).toNat + 10 * (t.mem.read (s.I.toNat + 1)).toNat +
        (t.mem.read (s.I.toNat + 2)).toNat = (s.reg x).toNat ∧
      BytesBut s.I.toNat 3 s t ∧ FrameBut [.mem] s t) ∧
    (s.I.toNat + 2 > 0xFFF →
      ∃ t, exec (.ldB x) s = .next t ∧ FaultsWith .dataAccessOutOfBounds s t)

/-- R114: `V[k]` to `mem[I + k]` for `k` up to `x`, and no other byte; past `0xFFF` it is fatal
and stores nothing (the spec's decision D5, log 14). `I` is unchanged (D19, log 23). -/
def Obligations.RegistersAreStored : Prop :=
  ∀ (x : Reg) (s : State), s.mem.wf = true →
    (s.I.toNat + x.val ≤ 0xFFF → ∃ t, exec (.storeRegs x) s = .next t ∧
      (∀ k : Reg, k ≤ x → t.mem.read (s.I.toNat + k.val) = s.reg k) ∧
      BytesBut s.I.toNat (x.val + 1) s t ∧ FrameBut [.mem] s t) ∧
    (s.I.toNat + x.val > 0xFFF →
      ∃ t, exec (.storeRegs x) s = .next t ∧ FaultsWith .dataAccessOutOfBounds s t)

/-- R115: `mem[I + k]` to `V[k]` for `k` up to `x`, and no other register; past `0xFFF` it is
fatal and loads nothing (the spec's decision D5, log 14). `I` is unchanged (D19, log 23). -/
def Obligations.RegistersAreLoaded : Prop :=
  ∀ (x : Reg) (s : State),
    (s.I.toNat + x.val ≤ 0xFFF → ∃ t, exec (.loadRegs x) s = .next t ∧
      (∀ k : Reg, k ≤ x → t.reg k = s.mem.read (s.I.toNat + k.val)) ∧
      (∀ k : Reg, x < k → t.reg k = s.reg k) ∧ FrameBut [.V] s t) ∧
    (s.I.toNat + x.val > 0xFFF →
      ∃ t, exec (.loadRegs x) s = .next t ∧ FaultsWith .dataAccessOutOfBounds s t)

/-- R114 and R115 undo each other, because the store leaves `I` unchanged, which is the spec's
decision D19 (log 23): what LD [I], Vx stored, LD Vx, [I] brings back, even after the registers were
overwritten, the other fields kept. -/
def Obligations.StoreThenLoadRestoresRegisters : Prop :=
  ∀ (x : Reg) (s t u : State), s.mem.wf = true → s.I.toNat + x.val ≤ 0xFFF →
    exec (.storeRegs x) s = .next t → FrameBut [.V] t u →
    ∃ v, exec (.loadRegs x) u = .next v ∧ ∀ k : Reg, k ≤ x → v.reg k = s.reg k

/-- R44: the primitives inside the address space, and their fault outside it. -/
def Obligations.MemoryPrimitives : Prop :=
  ∀ (a : Nat) (v : Byte) (s : State), s.mem.wf = true →
    (a ≤ 0xFFF → ∃ t, s.memWrite a v = .ok t ∧ t.memRead a = .ok v ∧
      (∀ c, c ≠ a → t.memRead c = s.memRead c) ∧ FrameBut [.mem] s t) ∧
    (a > 0xFFF → s.memWrite a v = .error .dataAccessOutOfBounds ∧
      s.memRead a = .error .dataAccessOutOfBounds)

/-- R40, by the spec's decision D20 (log 26): a store over the next instruction is what the next
fetch reads. -/
def Obligations.StoreIsSeenByTheNextFetch : Prop :=
  ∀ (x : Reg) (s t : State), s.mem.wf = true → 1 ≤ x.val → s.I = s.pc →
    s.pc.toNat + x.val ≤ 0xFFF → exec (.storeRegs x) s = .next t →
    ∃ u, fetch t = .ok u ∧ u.opcode = wordOfBytes (s.reg 0) (s.reg 1) ∧ u.pc = s.pc + 2

/-! ## Display (spec/44_display.md) -/

/-- R120: every pixel clear, VF untouched. -/
def Obligations.ClearScreenClearsEveryPixel : Prop :=
  ∀ s : State, ∃ t, exec .cls s = .next t ∧
    (∀ row col, row ≤ 31 → col ≤ 63 → t.disp.pixel row col = false) ∧ FrameBut [.disp] s t

/-- R121, R122: the pixels the sprite lights toggle, no other changes, VF says whether one was
turned off; a sprite that runs past `0xFFF` is fatal (the spec's decisions D5, D24, D11; logs 11,
14, 24). `I` is unchanged (D19, log 23). -/
def Obligations.DrawTogglesTheSpritesPixels : Prop :=
  ∀ (x y : Reg) (n : Nibble) (s : State),
    (n.toNat = 0 ∨ s.I.toNat + n.toNat - 1 ≤ 0xFFF → ∃ t, exec (.drw x y n) s = .next t ∧
      (∀ row col, row ≤ 31 → col ≤ 63 →
        t.disp.pixel row col = (s.disp.pixel row col ^^ spriteLit s x y n row col)) ∧
      (t.reg Reg.flag = 0x01 ∨ t.reg Reg.flag = 0x00) ∧
      (t.reg Reg.flag = 0x01 ↔ ∃ row col, row ≤ 31 ∧ col ≤ 63 ∧
        s.disp.pixel row col = true ∧ t.disp.pixel row col = false) ∧
      RegsBut [Reg.flag] s t ∧ FrameBut [.V, .disp] s t) ∧
    (1 ≤ n.toNat → s.I.toNat + n.toNat - 1 > 0xFFF →
      ∃ t, exec (.drw x y n) s = .next t ∧ FaultsWith .dataAccessOutOfBounds s t)

/-- 95_test_vectors.md S4, its first half: the same draw twice, at coordinates held outside VF,
restores the frame; that `I` is unchanged between them is the spec's decision D19 (log 23). -/
def Obligations.DrawTwiceRestoresTheFrame : Prop :=
  ∀ (x y : Reg) (n : Nibble) (s t u : State), x ≠ Reg.flag → y ≠ Reg.flag →
    exec (.drw x y n) s = .next t → exec (.drw x y n) t = .next u → u.disp = s.disp

/-- 95_test_vectors.md S5: after CLS a draw leaves exactly the sprite's pixels, and VF 0. -/
def Obligations.ClearThenDrawLeavesTheSprite : Prop :=
  ∀ (x y : Reg) (n : Nibble) (s t : State), exec .cls s = .next t →
    n.toNat = 0 ∨ s.I.toNat + n.toNat - 1 ≤ 0xFFF →
    ∃ u, exec (.drw x y n) t = .next u ∧ u.reg Reg.flag = 0x00 ∧
      ∀ row col, row ≤ 31 → col ≤ 63 → u.disp.pixel row col = spriteLit s x y n row col

/-! ## Keys and timers (spec/45_keys_timers.md) -/

/-- R130, R131: the skip is on the key the content of `V[x]` names; a content above `0x0F` is
fatal (the spec's decision D6, log 15). -/
def Obligations.KeySkipsReadTheNamedKey : Prop :=
  ∀ (x : Reg) (s : State),
    (∀ k : Fin 16, (s.reg x).toNat = k.val →
      (∃ t, exec (.skp x) s = .next t ∧
        t.pc = (if s.key[k.val] = true then s.pc + 2 else s.pc) ∧ FrameBut [.pc] s t) ∧
      (∃ t, exec (.sknp x) s = .next t ∧
        t.pc = (if s.key[k.val] = true then s.pc else s.pc + 2) ∧ FrameBut [.pc] s t)) ∧
    ((s.reg x).toNat > 0x0F →
      (∃ t, exec (.skp x) s = .next t ∧ FaultsWith .keyIndexOutOfRange s t) ∧
      (∃ t, exec (.sknp x) s = .next t ∧ FaultsWith .keyIndexOutOfRange s t))

/-- R133: the least key that is down (the spec's decision D7, log 16), or `pc` back by 2. -/
def Obligations.AwaitKeyTakesTheLeastKeyOrRewinds : Prop :=
  ∀ (x : Reg) (s : State),
    (∀ k : Fin 16, s.key[k.val] = true → (∀ j : Fin 16, j < k → s.key[j.val] = false) →
      ∃ t, exec (.ldVxK x) s = .next t ∧ (t.reg x).toNat = k.val ∧
        RegsBut [x] s t ∧ FrameBut [.V] s t) ∧
    ((∀ k : Fin 16, s.key[k.val] = false) →
      ∃ t, exec (.ldVxK x) s = .next t ∧ t.pc = s.pc - 2 ∧ FrameBut [.pc] s t)

/-- R132, R134, R135: the execute stage of the three timer moves. -/
def Obligations.TimerMovesCopyAByte : Prop :=
  ∀ (x : Reg) (s : State),
    (∃ t, exec (.ldVxDT x) s = .next t ∧ t.reg x = s.DT ∧ RegsBut [x] s t ∧ FrameBut [.V] s t) ∧
    (∃ t, exec (.ldDTVx x) s = .next t ∧ t.DT = s.reg x ∧ FrameBut [.DT] s t) ∧
    (∃ t, exec (.ldSTVx x) s = .next t ∧ t.ST = s.reg x ∧ FrameBut [.ST] s t)

/-! ## The unknown opcode (spec/40_cycle.md R74) -/

/-- R74: inert but for the report, whose content is the spec's decision D9 (log 4). -/
def Obligations.UnknownOpcodeOnlyReports : Prop :=
  ∀ (w : Word16) (s : State), ∃ t, exec (.unknown w) s = .next t ∧
    t.report = some ⟨s.pc, s.opcode⟩ ∧ FrameBut [.report] s t

/-! ## Whole-machine rules about execute -/

/-- 10_state.md section 3 (R12): a register changes only as a destination or, for VF, under one of
the seven flag writers. -/
def Obligations.RegistersChangeOnlyAsDestinationOrFlag : Prop :=
  ∀ (i : Instr) (s t : State) (r : Reg), exec i s = .next t → r ∉ destRegs i →
    (r = Reg.flag → setsFlag i = false) → t.reg r = s.reg r

/-- 10_state.md section 3 (R12): a flag writer that completes leaves `0x00` or `0x01` in VF; with
`x = 0xF` that is the spec's decision D27 (log 21). -/
def Obligations.FlagWritersLeaveZeroOrOne : Prop :=
  ∀ (i : Instr) (s t : State), setsFlag i = true → faultOf s i = none → exec i s = .next t →
    t.reg Reg.flag = 0x00 ∨ t.reg Reg.flag = 0x01

/-- 10_state.md (R13 to R23): every field is written only by the instructions the spec names; in
particular no instruction writes the key latch or the opcode latch. That no memory access writes
`I` is the spec's decision D19 (log 23), that only CALL and RET touch the stack D17 (log 30). -/
def Obligations.FieldsAreWrittenOnlyByTheirInstructions : Prop :=
  ∀ (i : Instr) (s t : State), exec i s = .next t → FrameBut (mayWrite i) s t

/-- 10_state.md section 4: the table of R13, for an instruction that meets no fatal condition. The
target of JP Vx, nn is the spec's decision D30 (log 19), the level test of LD Vx, K its resolution
C2 (log 17). -/
def Obligations.PcMovesAsTabulated : Prop :=
  ∀ (i : Instr) (s t : State), faultOf s i = none → exec i s = .next t → PcAfter s t i

/-- 60_exceptions.md section 1 (R140) with R149: execute enters exactly the fatal condition the
table gives, and otherwise leaves the halt latch and the record alone. The record's content and
the state kept are the spec's decision D4 (log 3). -/
def Obligations.FatalConditionsAreExactlyTheTables : Prop :=
  ∀ (i : Instr) (s : State),
    (∀ c, faultOf s i = some c →
      exec i s = .next { s with halted := true, fault := some ⟨c, s.pc, s.opcode⟩ }) ∧
    (faultOf s i = none → ∃ t, exec i s = .next t ∧ t.halted = s.halted ∧ t.fault = s.fault)

/-! ## The cycle (spec/40_cycle.md) -/

/-- R70 to R73 in the model's names: a running core whose bytes at `pc` decode to `i` executes
`i` on the fetched state, then ticks both timers unless a fatal condition was entered. -/
def Obligations.StepRunsTheDecodedInstruction : Prop :=
  ∀ (s t : State) (i : Instr) (rest : List Byte), s.halted = false → s.pc.toNat ≤ 0x0FFE →
    decode [s.mem.read s.pc.toNat, s.mem.read (s.pc.toNat + 1)] = .ok (i, rest) →
    exec i s.fetched = .next t →
    step s = .next (if t.halted = true then t else
      { t with DT := if t.DT = 0 then t.DT else t.DT - 1,
               ST := if t.ST = 0 then t.ST else t.ST - 1 })

/-- 60_exceptions.md section 2 (R141), 20_memory.md section 6 (R35; decisions D4, D23, logs 3,
25): a fetch past memory halts with nothing read, advanced or ticked; the report field is empty
(log 4). -/
def Obligations.FetchPastMemoryHalts : Prop :=
  ∀ s : State, s.halted = false → s.pc.toNat > 0x0FFE →
    ∃ t, step s = .next t ∧ t.halted = true ∧
      t.fault = some ⟨.fetchOutOfBounds, s.pc, s.opcode⟩ ∧ t.report = none ∧
      FrameBut [.halted, .fault, .report] s t

/-- 40_cycle.md section 6 (R77, decision D2, log 2): a halted core never changes again. -/
def Obligations.HaltedCoreNeverChanges : Prop :=
  ∀ (n : Nat) (s : State), s.halted = true → Sys2Proof.core.run n s = .next s

/-- 60_exceptions.md section 6 (R149, R151, decision D4, log 3): a cycle that halts the core has
done its fetch, or not even that, and nothing else: no register, byte, pixel, stack entry or timer
changes. The report field is empty (log 4). -/
def Obligations.FaultsArePrecise : Prop :=
  ∀ s t : State, s.halted = false → step s = .next t → t.halted = true →
    FrameBut [.pc, .opcode, .halted, .fault, .report] s t ∧ t.report = none ∧
    ((s.pc.toNat > 0x0FFE ∧ t.pc = s.pc ∧ t.opcode = s.opcode ∧
        t.fault = some ⟨.fetchOutOfBounds, t.pc, t.opcode⟩) ∨
      (s.pc.toNat ≤ 0x0FFE ∧ t.pc = s.pc + 2 ∧ t.opcode = s.wordAtPc ∧
        ∃ c, c ≠ .fetchOutOfBounds ∧ t.fault = some ⟨c, t.pc, t.opcode⟩))

/-- 40_cycle.md section 1 (R70): every state has a next state; no step of this model ends in a
stop outside the halt latch (log 2). -/
def Obligations.EveryStepHasANextState : Prop := ∀ s : State, ∃ t, step s = .next t

/-- 40_cycle.md section 5 (R75, decision D14, log 22) with 45_keys_timers.md (R134, R135): after a
cycle that does not fault each timer is one less than it was, or than the byte just set, and never
below zero. -/
def Obligations.TimersCountExecutedInstructions : Prop :=
  ∀ s t : State, s.halted = false → step s = .next t → t.halted = false →
    t.DT.toNat = (match decodeWord s.wordAtPc with
      | .ldDTVx x => (s.reg x).toNat - 1
      | _ => s.DT.toNat - 1) ∧
    t.ST.toNat = (match decodeWord s.wordAtPc with
      | .ldSTVx x => (s.reg x).toNat - 1
      | _ => s.ST.toNat - 1)

/-- 95_test_vectors.md S9: a cycle of a register skip advances `pc` by exactly 4 when the
condition holds and by exactly 2 otherwise. -/
def Obligations.SkipCyclesAdvanceFourOrTwo : Prop :=
  ∀ (x y : Reg) (nn : Byte) (ignored : Nibble) (s : State), s.halted = false →
    s.pc.toNat ≤ 0x0FFE →
    (s.wordAtPc = encode (.seImm x nn) → ∃ t, step s = .next t ∧ t.halted = false ∧
      t.pc.toNat = s.pc.toNat + if s.reg x = nn then 4 else 2) ∧
    (s.wordAtPc = encode (.sneImm x nn) → ∃ t, step s = .next t ∧ t.halted = false ∧
      t.pc.toNat = s.pc.toNat + if s.reg x = nn then 2 else 4) ∧
    (s.wordAtPc = encode (.seReg x y ignored) → ∃ t, step s = .next t ∧ t.halted = false ∧
      t.pc.toNat = s.pc.toNat + if s.reg x = s.reg y then 4 else 2) ∧
    (s.wordAtPc = encode (.sneReg x y ignored) → ∃ t, step s = .next t ∧ t.halted = false ∧
      t.pc.toNat = s.pc.toNat + if s.reg x = s.reg y then 2 else 4)

/-- 41_control_flow.md section 2 (R81, D22): a jump to itself changes nothing but the timers (the
tick is the spec's decision D14, log 22), and the latch and report of the cycle (log 4). -/
def Obligations.SelfJumpOnlyTicks : Prop :=
  ∀ (nnn : Addr12) (s : State), s.halted = false → s.pc.toNat ≤ 0x0FFE →
    s.wordAtPc = encode (.jp nnn) → nnn.toNat = s.pc.toNat →
    ∃ t, step s = .next t ∧ t.DT.toNat = s.DT.toNat - 1 ∧ t.ST.toNat = s.ST.toNat - 1 ∧
      FrameBut [.DT, .ST, .opcode, .report] s t

/-- 45_keys_timers.md section 2 (R133): with no key down LD Vx, K is fetched again. That the timers
tick in the waiting cycle is the spec's decision D14 (log 22); the level test is its resolution C2
(log 17), the report field the model's (log 4). Nothing else but the opcode latch changes. -/
def Obligations.AwaitKeyWaitsByReExecution : Prop :=
  ∀ (x : Reg) (s : State), s.halted = false → s.pc.toNat ≤ 0x0FFE →
    s.wordAtPc = encode (.ldVxK x) → (∀ k : Fin 16, s.key[k.val] = false) →
    ∃ t, step s = .next t ∧ t.DT.toNat = s.DT.toNat - 1 ∧ t.ST.toNat = s.ST.toNat - 1 ∧
      FrameBut [.DT, .ST, .opcode, .report] s t

/-! ## Encoding (spec/30_encoding.md) -/

/-- A few words written out from R64's patterns (the values are the spec's own, G1, log 10). -/
def Obligations.WrittenOutWordsDecode : Prop :=
  decodeWord 0x00E0 = .cls ∧ decodeWord 0x2ABC = .call 0xABC ∧
  decodeWord 0x5127 = .seReg 1 2 7 ∧ decodeWord 0x8A5E = .shl 0xA 5 ∧
  decodeWord 0xB234 = .jpOff 2 0x34 ∧ decodeWord 0xD12F = .drw 1 2 0xF ∧
  decodeWord 0xE7A1 = .sknp 7 ∧ decodeWord 0xF355 = .storeRegs 3 ∧
  decodeWord 0x01E0 = .unknown 0x01E0

/-- Every well-formed instruction, at every value of its fields, decodes from the bytes it encodes
to, whatever bytes follow. -/
def Obligations.DecodeInvertsEncode : Prop :=
  ∀ (i : Instr) (rest : List Byte), i.wf = true →
    decode (encodeBytes i ++ rest) = .ok (i, rest)

/-- Every word is the word of the instruction it decodes to, which is well formed: the decoder is
total and loses no bit (R60). -/
def Obligations.EncodeInvertsDecode : Prop :=
  ∀ w : Word16, (decodeWord w).wf = true ∧ encode (decodeWord w) = w

/-- The two-level dispatch of R53 to R59 selects the row of the map R64 (its keys are the spec's
decision D8 and general knowledge G1, logs 12, 10). -/
def Obligations.DispatchFollowsTheMap : Prop :=
  ∀ w : Word16, (decodeWord w).mnemonic = tableMnemonic w

/-- R64: "no two of those rows overlap" (the rows' values are the spec's own, G1, log 10). -/
def Obligations.MapRowsDoNotOverlap : Prop :=
  ∀ (w : Word16) (r q : OpcodeRow), r ∈ opcodeTable → q ∈ opcodeTable →
    w &&& r.mask = r.value → w &&& q.mask = q.value → r = q

/-- R60: the unknown words are exactly the set it lists (the keys are the spec's decision D8 and
general knowledge G1, logs 12, 10). -/
def Obligations.UnknownWordsAreExactlyTheListedSet : Prop :=
  ∀ w : Word16, decodeWord w = .unknown w ↔ unknownWord w = true

/-! ## Reset, load, invariants (spec/70_reset_and_hazards.md, spec/10_state.md) -/

/-- R25, R170, from any state: every field of the spec at its reset value, the memory zero but for
the font constant. The values of `I`, the stack, the frame and the latch rest on the spec's decision
D25 (log 8), the font's place is R171's, its byte values are not claimed. -/
def Obligations.ResetLeavesTheTabulatedValues : Prop :=
  ∀ s : State,
    s.hostReset.pc = 0x0200 ∧ s.hostReset.I = 0 ∧ s.hostReset.sp = 0 ∧
    (∀ r, s.hostReset.reg r = 0) ∧ (∀ k : Fin 16, s.hostReset.stack[k.val] = 0) ∧
    (∀ k, s.hostReset.keyDown k = false) ∧ s.hostReset.DT = 0 ∧ s.hostReset.ST = 0 ∧
    (∀ row col, s.hostReset.disp.pixel row col = false) ∧ s.hostReset.opcode = 0 ∧
    s.hostReset.halted = false ∧
    (∀ k, k < 80 → s.hostReset.mem.read (0x050 + k) = Config.font.getD k 0) ∧
    (∀ a, a < 0x050 ∨ 0x0A0 ≤ a → s.hostReset.mem.read a = 0) ∧
    Config.font.length = 80 ∧ State.reset.hostReset = State.reset

/-- R172: an image of at most 3584 bytes lands at `0x200` and nothing else changes; a longer one
is refused and changes nothing. -/
def Obligations.LoadCopiesTheImageOrRefusesIt : Prop :=
  ∀ (rom : List Byte) (s : State), s.mem.wf = true →
    (rom.length ≤ 3584 → ∃ t, s.load rom = .ok t ∧
      (∀ k, k < rom.length → t.mem.read (0x200 + k) = rom.getD k 0) ∧
      BytesBut 0x200 rom.length s t ∧ FrameBut [.mem] s t) ∧
    (rom.length > 3584 → s.load rom = .error .tooLarge)

/-- The invariant holds at reset. Its clause that a record is there exactly when the core is halted
rests on the model's choice that reset has none (log 7), its report clause on log 4. -/
def Obligations.ResetMeetsTheInvariant : Prop := State.reset.Inv

/-- Every step keeps the invariant (R13, R15, R16, R24): memory canonical, `pc` at most
`0x1002`, live stack entries at most `0x1000`. Two more clauses are the model's choice: a record
exactly when halted (log 7), no report of a halted core (log 4). -/
def Obligations.EveryStepKeepsTheInvariant : Prop :=
  ∀ s t : State, s.Inv → step s = .next t → t.Inv

/-- R24: the invariant holds in every state the core reaches under its host, whatever program is
loaded and keys are pressed (the host's order is log 29). The record and report clauses of the
invariant are the model's choice (logs 7, 4). -/
def Obligations.ReachableStatesMeetTheInvariant : Prop := ∀ h : Session, Reachable h → h.core.Inv

/-! ## What an instruction cannot see -/

/-- 60_exceptions.md section 9 (R157): the random input is consumed by RND only. -/
def Obligations.OnlyRandomReadsTheDraws : Prop :=
  ∀ (i : Instr) (s t : State) (d : Nat), (∀ x nn, i ≠ .rnd x nn) → exec i s = .next t →
    exec i { s with draws := d } = .next { t with draws := d }

/-- 10_state.md section 7 (R18): no instruction reads the sound timer. -/
def Obligations.NoInstructionReadsTheSoundTimer : Prop :=
  ∀ (i : Instr) (s t : State) (v : Byte), exec i s = .next t →
    exec i { s with ST := v } =
      .next { t with ST := match i with | .ldSTVx x => s.reg x | _ => v }

/-- 10_state.md section 6 (R15): the dead entries of the stack are never read: states that differ
only there step to states that differ only there. -/
def Obligations.DeadStackEntriesAreNeverRead : Prop :=
  ∀ s u t : State, AgreeButDeadEntries s u → step s = .next t →
    ∃ w, step u = .next w ∧ AgreeButDeadEntries t w

/-! ## The host (spec/60_exceptions.md section 10) -/

/-- 60_exceptions.md section 10 (R158), 70_reset_and_hazards.md sections 2 and 3 (R172, R173), by
the spec's decision D18 and its U8 (log 29). A load exists once per reset, before the first step;
steps exist after a load that succeeded; otherwise the host reaches the core only through the key
latch and reset. So a core that has not been loaded is still the reset state but for its keys. -/
def Obligations.HostLoadsOnceBeforeTheFirstStep : Prop :=
  (∀ (h k : Session) (source : Option (List Byte)), h.move (.load source) = some k →
    h.stage = .atReset ∧ k.stage ≠ .atReset ∧ (k.stage = .loadRefused → k.core = h.core)) ∧
  (∀ (h : Session) (rom : List Byte), h.stage = .atReset → rom.length ≤ 3584 →
    ∃ t, h.core.load rom = .ok t ∧ h.move (.load (some rom)) = some ⟨t, .loaded⟩) ∧
  (∀ (h : Session) (rom : List Byte), h.stage = .atReset → rom.length > 3584 →
    h.move (.load (some rom)) = some ⟨h.core, .loadRefused⟩) ∧
  (∀ h : Session, h.stage = .atReset → h.move (.load none) = some ⟨h.core, .loadRefused⟩) ∧
  (∀ h k : Session, h.move .step = some k ↔
    h.stage = .loaded ∧ k.stage = .loaded ∧ step h.core = .next k.core) ∧
  (∀ (h k : Session) (m : HostMove), h.stage = .loaded → h.move m = some k → m ≠ .step →
    m ≠ .reset → k.stage = .loaded ∧ FrameBut [.key] h.core k.core) ∧
  (∀ h : Session, h.move .reset = some ⟨h.core.hostReset, .atReset⟩) ∧
  (∀ h : Session, Reachable h → h.stage ≠ .loaded → FrameBut [.key, .draws] State.reset h.core)
end

