-- ==== Sys2Proof/Laws/Display.lean ====
section
/-! SUPPORT. The drawing loops, pixel by pixel: what each leaves in the frame, and when it reports
a pixel turned off. -/

namespace Sys2Proof.Machine

@[simp] theorem Frame.pixel_blank (row col : Nat) : Frame.blank.pixel row col = false := by
  simp [Frame.pixel, Frame.blank]

theorem Frame.pixel_outside (d : Frame) {row col : Nat} (h : ¬ (row ≤ 31 ∧ col ≤ 63)) :
    d.pixel row col = false := by simp [Frame.pixel, h]

/-- Two frames are equal when every pixel of the frame reads the same. -/
theorem Frame.ext_pixel {d e : Frame}
    (h : ∀ row col, row ≤ 31 → col ≤ 63 → d.pixel row col = e.pixel row col) : d = e := by
  apply Vector.ext
  intro r hr
  apply Vector.ext
  intro c hc
  have := h r c (by omega) (by omega)
  simpa [Frame.pixel, show r ≤ 31 by omega, show c ≤ 63 by omega] using this

theorem Frame.pixel_toggle (d : Frame) (row col r c : Nat) :
    (d.toggle row col).pixel r c =
      ((d.pixel r c) ^^ decide (r = row ∧ c = col ∧ row ≤ 31 ∧ col ≤ 63)) := by
  by_cases hin : row ≤ 31 ∧ col ≤ 63
  · by_cases hrc : r ≤ 31 ∧ c ≤ 63
    · simp only [Frame.toggle, dif_pos hin, Frame.pixel, dif_pos hrc, Vector.getElem_set]
      by_cases hr : row = r
      · subst hr
        by_cases hc : col = c
        · subst hc; simp [hin]
        · simp [hc, Ne.symm hc]
      · simp [hr, Ne.symm hr]
    · rw [Frame.pixel_outside _ hrc, Frame.pixel_outside _ hrc]
      simp
      omega
  · have : ¬ (r = row ∧ c = col ∧ row ≤ 31 ∧ col ≤ 63) := by tauto
    simp [Frame.toggle, dif_neg hin, this]

/-- Bit `7 - (col - X)` of a sprite byte drawn from column `X` on: is `col` lit? -/
def byteLit (b : Byte) (X col : Nat) : Bool :=
  decide (X ≤ col ∧ col < X + 8) && b.getLsbD (7 - (col - X))

/-- Is `(row, col)` lit by the bytes drawn downward from `(top, X)`? -/
def bytesLit (bs : List Byte) (top X row col : Nat) : Bool :=
  decide (top ≤ row ∧ row < top + bs.length) && byteLit (bs.getD (row - top) 0) X col

/-- The columns of one byte drawn so far, from a list of bit positions without repeats. -/
theorem drawColumns_spec (b : Byte) (row X : Nat) (cs : List Nat) (hcs : cs.Nodup)
    (acc : Frame × Bool) :
    let res := cs.foldl
      (fun acc c => if b.getLsbD (7 - c) then drawPixel acc row (X + c) else acc) acc
    (∀ r c, r ≤ 31 → c ≤ 63 → res.1.pixel r c = (acc.1.pixel r c ^^
      decide (r = row ∧ ∃ k ∈ cs, c = X + k ∧ b.getLsbD (7 - k) = true))) ∧
    (res.2 = true ↔ acc.2 = true ∨
      ∃ k ∈ cs, b.getLsbD (7 - k) = true ∧ acc.1.pixel row (X + k) = true) := by
  induction cs generalizing acc with
  | nil => simp
  | cons k cs ih =>
    rw [List.nodup_cons] at hcs
    obtain ⟨hk, hcs⟩ := hcs
    simp only [List.foldl_cons]
    by_cases hb : b.getLsbD (7 - k) = true
    · simp only [hb, if_true]
      obtain ⟨h1, h2⟩ := ih hcs (drawPixel acc row (X + k))
      constructor
      · intro r c hr hc
        rw [h1 r c hr hc]
        simp only [drawPixel, Frame.pixel_toggle, Bool.xor_assoc]
        congr 1
        by_cases hrow : r = row
        · by_cases hcol : c = X + k
          · have hno : ¬ ∃ j ∈ cs, c = X + j ∧ b.getLsbD (7 - j) = true := by
              rintro ⟨j, hj, hj', -⟩
              exact hk (by rwa [show k = j by omega])
            simp only [hno, and_false, decide_false, Bool.xor_false, decide_eq_decide]
            exact ⟨fun _ => ⟨hrow, k, by simp, hcol, hb⟩, fun _ => by omega⟩
          · have hl : ¬ (r = row ∧ c = X + k ∧ row ≤ 31 ∧ X + k ≤ 63) := by tauto
            simp only [hl, decide_false, Bool.false_xor, decide_eq_decide, List.mem_cons]
            constructor
            · rintro ⟨h, j, hj, rest⟩; exact ⟨h, j, .inr hj, rest⟩
            · rintro ⟨h, j, rfl | hj, rest⟩
              · exact absurd rest.1 hcol
              · exact ⟨h, j, hj, rest⟩
        · simp [hrow]
      · rw [h2]
        simp only [drawPixel, Frame.pixel_toggle, Bool.or_eq_true, List.mem_cons]
        constructor
        · rintro ((h | h) | ⟨j, hj, hbj, hp⟩)
          · exact .inl h
          · exact .inr ⟨k, .inl rfl, hb, h⟩
          · refine .inr ⟨j, .inr hj, hbj, ?_⟩
            have : j ≠ k := fun h => hk (h ▸ hj)
            simpa [this] using hp
        · rintro (h | ⟨j, rfl | hj, hbj, hp⟩)
          · exact .inl (.inl h)
          · exact .inl (.inr hp)
          · refine .inr ⟨j, hj, hbj, ?_⟩
            have : j ≠ k := fun h => hk (h ▸ hj)
            simpa [this] using hp
    · obtain ⟨h1, h2⟩ := ih hcs acc
      simp only [hb]
      refine ⟨fun r c hr hc => ?_, ?_⟩
      · rw [if_neg (by simp), h1 r c hr hc]
        congr 1
        simp only [decide_eq_decide, List.mem_cons]
        constructor
        · rintro ⟨h, j, hj, rest⟩; exact ⟨h, j, .inr hj, rest⟩
        · rintro ⟨h, j, rfl | hj, rest⟩
          · exact absurd rest.2 hb
          · exact ⟨h, j, hj, rest⟩
      · rw [if_neg (by simp), h2]
        constructor
        · rintro (h | ⟨j, hj, rest⟩)
          · exact .inl h
          · exact .inr ⟨j, by simp [hj], rest⟩
        · rintro (h | ⟨j, hj, rest⟩)
          · exact .inl h
          · rcases List.mem_cons.mp hj with rfl | hj
            · exact absurd rest.1 hb
            · exact .inr ⟨j, hj, rest⟩

theorem byteLit_iff (b : Byte) (X c : Nat) :
    byteLit b X c = true ↔ ∃ k ∈ List.range 8, c = X + k ∧ b.getLsbD (7 - k) = true := by
  simp only [byteLit, Bool.and_eq_true, decide_eq_true_eq, List.mem_range]
  constructor
  · rintro ⟨h, hb⟩
    exact ⟨c - X, by omega, by omega, hb⟩
  · rintro ⟨k, hk, rfl, hb⟩
    exact ⟨by omega, by rwa [show X + k - X = k by omega]⟩

/-- One sprite byte: the pixels it lights toggle; a hit is a lit pixel that was set. -/
theorem drawByte_spec (b : Byte) (row X : Nat) (acc : Frame × Bool) :
    (∀ r c, r ≤ 31 → c ≤ 63 → (drawByte b row X acc).1.pixel r c =
      (acc.1.pixel r c ^^ (decide (r = row) && byteLit b X c))) ∧
    ((drawByte b row X acc).2 = true ↔ acc.2 = true ∨
      ∃ c, byteLit b X c = true ∧ acc.1.pixel row c = true) := by
  obtain ⟨h1, h2⟩ := drawColumns_spec b row X (List.range 8) List.nodup_range acc
  constructor
  · intro r c hr hc
    rw [drawByte, h1 r c hr hc]
    congr 1
    rw [Bool.eq_iff_iff]
    simp only [decide_eq_true_eq, Bool.and_eq_true, byteLit_iff]
  · rw [drawByte, h2]
    simp only [byteLit_iff]
    constructor
    · rintro (h | ⟨k, hk, hb, hp⟩)
      · exact .inl h
      · exact .inr ⟨X + k, ⟨k, hk, rfl, hb⟩, hp⟩
    · rintro (h | ⟨c, ⟨k, hk, rfl, hb⟩, hp⟩)
      · exact .inl h
      · exact .inr ⟨k, hk, hb, hp⟩

@[simp] theorem bytesLit_nil (top X row col : Nat) : bytesLit [] top X row col = false := by
  simp only [bytesLit, List.length_nil, Bool.and_eq_false_iff, decide_eq_false_iff_not]
  omega

theorem bytesLit_cons (b : Byte) (bs : List Byte) (top X row col : Nat) :
    bytesLit (b :: bs) top X row col =
      ((decide (row = top) && byteLit b X col) ^^ bytesLit bs (top + 1) X row col) := by
  simp only [bytesLit, List.length_cons]
  rcases Nat.lt_trichotomy row top with h | h | h
  · simp [show ¬ top ≤ row by omega, show row ≠ top by omega, show ¬ top + 1 ≤ row by omega]
  · subst h
    simp [show ¬ row + 1 ≤ row by omega]
  · obtain ⟨d, rfl⟩ : ∃ d, row = top + 1 + d := ⟨row - (top + 1), by omega⟩
    simp only [show top + 1 + d - top = d + 1 by omega, show top + 1 + d - (top + 1) = d by omega,
      List.getD_cons_succ, show ¬ top + 1 + d = top by omega, decide_false, Bool.false_and,
      Bool.false_xor]
    congr 1
    simp only [decide_eq_decide]
    omega

/-- A sprite drawn: every pixel it lights toggles, every other keeps its value; a hit is a lit
pixel of the frame that was set before the draw. -/
theorem drawSprite_spec (bs : List Byte) (top X : Nat) (acc : Frame × Bool) :
    (∀ r c, r ≤ 31 → c ≤ 63 → (drawSprite bs top X acc).1.pixel r c =
      (acc.1.pixel r c ^^ bytesLit bs top X r c)) ∧
    ((drawSprite bs top X acc).2 = true ↔ acc.2 = true ∨
      ∃ r c, r ≤ 31 ∧ c ≤ 63 ∧ bytesLit bs top X r c = true ∧ acc.1.pixel r c = true) := by
  induction bs generalizing top acc with
  | nil => simp [drawSprite]
  | cons b bs ih =>
    obtain ⟨h1, h2⟩ := ih (top + 1) (drawByte b top X acc)
    obtain ⟨g1, g2⟩ := drawByte_spec b top X acc
    constructor
    · intro r c hr hc
      rw [drawSprite, h1 r c hr hc, g1 r c hr hc, bytesLit_cons, Bool.xor_assoc]
    · rw [drawSprite, h2, g2]
      have hin : ∀ c, acc.1.pixel top c = true → top ≤ 31 ∧ c ≤ 63 := by
        intro c hp
        by_contra hn
        rw [Frame.pixel_outside _ hn] at hp
        cases hp
      have htop : ∀ c, bytesLit bs (top + 1) X top c = false := by
        intro c
        simp [bytesLit]
      constructor
      · rintro ((h | ⟨c, hl, hp⟩) | ⟨r, c, hr, hc, hl, hp⟩)
        · exact .inl h
        · exact .inr ⟨top, c, (hin c hp).1, (hin c hp).2, by simp [bytesLit_cons, hl, htop], hp⟩
        · have hne : r ≠ top := by rintro rfl; simp [htop] at hl
          refine .inr ⟨r, c, hr, hc, by simp [bytesLit_cons, hl, hne], ?_⟩
          simpa [g1 r c hr hc, hne] using hp
      · rintro (h | ⟨r, c, hr, hc, hl, hp⟩)
        · exact .inl (.inl h)
        · by_cases hne : r = top
          · subst hne
            exact .inl (.inr ⟨c, by simpa [bytesLit_cons, htop] using hl, hp⟩)
          · refine .inr ⟨r, c, hr, hc, by simpa [bytesLit_cons, hne] using hl, ?_⟩
            simpa [g1 r c hr hc, hne] using hp

end Sys2Proof.Machine
end

