-- ==== Sys2Proof/Laws/Encoding.lean ====
section
/-! SUPPORT. The fields of the encoder's words, the masks of R64 as fields, and the fields of a word
as numbers. -/

namespace Sys2Proof

/-! ### The masks of R64 -/

theorem and_mask_op (w : Word16) :
    w &&& 0xF000#16 = opField w ++ 0x000#12 := by
  apply BitVec.eq_of_getLsbD_eq
  intro i hi
  simp only [opField, BitVec.getLsbD_and, BitVec.getLsbD_append, BitVec.getLsbD_extractLsb']
  interval_cases i <;> simp

theorem and_mask_op_n (w : Word16) :
    w &&& 0xF00F#16 = opField w ++ 0x00#8 ++ nField w := by
  apply BitVec.eq_of_getLsbD_eq
  intro i hi
  simp only [opField, nField, BitVec.getLsbD_and,
    BitVec.getLsbD_append, BitVec.getLsbD_extractLsb']
  interval_cases i <;> simp

theorem and_mask_op_nn (w : Word16) :
    w &&& 0xF0FF#16 = opField w ++ 0x0#4 ++ nnField w := by
  apply BitVec.eq_of_getLsbD_eq
  intro i hi
  simp only [opField, nnField, BitVec.getLsbD_and,
    BitVec.getLsbD_append, BitVec.getLsbD_extractLsb']
  interval_cases i <;> simp

/-- Concatenations of like parts are equal when the parts are. -/
theorem append_beq {a b : Nat} (x x' : BitVec a) (y y' : BitVec b) :
    (x ++ y == x' ++ y') = (x == x' && y == y') := by
  rw [Bool.eq_iff_iff]
  simp only [beq_iff_eq, Bool.and_eq_true]
  constructor
  · intro h
    constructor
    · apply BitVec.eq_of_getLsbD_eq
      intro i hi
      have := congrArg (·.getLsbD (i + b)) h
      simpa [BitVec.getLsbD_append] using this
    · apply BitVec.eq_of_getLsbD_eq
      intro i hi
      have := congrArg (·.getLsbD i) h
      simpa [BitVec.getLsbD_append, hi] using this
  · rintro ⟨rfl, rfl⟩; rfl

/-- The compare of a row whose mask is `0xF000`: the family. -/
theorem match_op (w v : Word16) (h : v = v.extractLsb' 12 4 ++ 0x000#12) :
    (w &&& 0xF000#16 == v) = (opField w == v.extractLsb' 12 4) := by
  conv_lhs => rw [h, and_mask_op, append_beq]
  simp

/-- The compare of a row whose mask is `0xF00F`: the family and the low nibble. -/
theorem match_op_n (w v : Word16) (h : v = v.extractLsb' 12 4 ++ 0x00#8 ++ v.extractLsb' 0 4) :
    (w &&& 0xF00F#16 == v) =
      (opField w == v.extractLsb' 12 4 && nField w == v.extractLsb' 0 4) := by
  conv_lhs => rw [h, and_mask_op_n, append_beq, append_beq]
  simp

/-- The compare of a row whose mask is `0xF0FF`: the family and the low byte. -/
theorem match_op_nn (w v : Word16) (h : v = v.extractLsb' 12 4 ++ 0x0#4 ++ v.extractLsb' 0 8) :
    (w &&& 0xF0FF#16 == v) =
      (opField w == v.extractLsb' 12 4 && nnField w == v.extractLsb' 0 8) := by
  conv_lhs => rw [h, and_mask_op_nn, append_beq, append_beq]
  simp

theorem and_mask_all (w : Word16) : w &&& 0xFFFF#16 = w := by
  rw [show 0xFFFF#16 = BitVec.allOnes 16 from rfl, BitVec.and_allOnes]

/-- A word of another family is not a word of family 0. -/
theorem beq_false_of_opField {w v : Word16} (h : opField w ≠ opField v) : (w == v) = false := by
  rw [beq_eq_false_iff_ne]
  exact fun e => h (congrArg opField e)

/-! ### The fields of the encoder's words -/

@[simp] theorem regBits_toFin (r : Reg) : (regBits r).toFin = r := rfl

@[simp] theorem opField_wordNNN (op : Nibble) (nnn : Addr12) :
    opField (wordNNN op nnn) = op := by
  apply BitVec.eq_of_getLsbD_eq
  intro i hi
  simp only [opField, wordNNN, BitVec.getLsbD_append, BitVec.getLsbD_extractLsb']
  interval_cases i <;> simp

@[simp] theorem nnnField_wordNNN (op : Nibble) (nnn : Addr12) :
    nnnField (wordNNN op nnn) = nnn := by
  apply BitVec.eq_of_getLsbD_eq
  intro i hi
  simp only [nnnField, wordNNN, BitVec.getLsbD_append, BitVec.getLsbD_extractLsb']
  interval_cases i <;> simp

@[simp] theorem opField_wordXNN (op : Nibble) (x : Reg) (nn : Byte) :
    opField (wordXNN op x nn) = op := by
  apply BitVec.eq_of_getLsbD_eq
  intro i hi
  simp only [opField, wordXNN, BitVec.getLsbD_append, BitVec.getLsbD_extractLsb']
  interval_cases i <;> simp

@[simp] theorem xField_wordXNN (op : Nibble) (x : Reg) (nn : Byte) :
    xField (wordXNN op x nn) = x := by
  have h : (wordXNN op x nn).extractLsb' 8 4 = regBits x := by
    apply BitVec.eq_of_getLsbD_eq
    intro i hi
    simp only [wordXNN, BitVec.getLsbD_append, BitVec.getLsbD_extractLsb']
    interval_cases i <;> simp
  rw [xField, h, regBits_toFin]

@[simp] theorem nnField_wordXNN (op : Nibble) (x : Reg) (nn : Byte) :
    nnField (wordXNN op x nn) = nn := by
  apply BitVec.eq_of_getLsbD_eq
  intro i hi
  simp only [nnField, wordXNN, BitVec.getLsbD_append, BitVec.getLsbD_extractLsb']
  interval_cases i <;> simp

@[simp] theorem opField_wordXYN (op : Nibble) (x : Reg) (y : Reg) (n : Nibble) :
    opField (wordXYN op x y n) = op := by
  apply BitVec.eq_of_getLsbD_eq
  intro i hi
  simp only [opField, wordXYN, BitVec.getLsbD_append, BitVec.getLsbD_extractLsb']
  interval_cases i <;> simp

@[simp] theorem xField_wordXYN (op : Nibble) (x : Reg) (y : Reg) (n : Nibble) :
    xField (wordXYN op x y n) = x := by
  have h : (wordXYN op x y n).extractLsb' 8 4 = regBits x := by
    apply BitVec.eq_of_getLsbD_eq
    intro i hi
    simp only [wordXYN, BitVec.getLsbD_append, BitVec.getLsbD_extractLsb']
    interval_cases i <;> simp
  rw [xField, h, regBits_toFin]

@[simp] theorem yField_wordXYN (op : Nibble) (x : Reg) (y : Reg) (n : Nibble) :
    yField (wordXYN op x y n) = y := by
  have h : (wordXYN op x y n).extractLsb' 4 4 = regBits y := by
    apply BitVec.eq_of_getLsbD_eq
    intro i hi
    simp only [wordXYN, BitVec.getLsbD_append, BitVec.getLsbD_extractLsb']
    interval_cases i <;> simp
  rw [yField, h, regBits_toFin]

@[simp] theorem nField_wordXYN (op : Nibble) (x : Reg) (y : Reg) (n : Nibble) :
    nField (wordXYN op x y n) = n := by
  apply BitVec.eq_of_getLsbD_eq
  intro i hi
  simp only [nField, wordXYN, BitVec.getLsbD_append, BitVec.getLsbD_extractLsb']
  interval_cases i <;> simp

/-! ### Words of another family are not CLS or RET -/

theorem wordNNN_beq_cls (op : Nibble) (nnn : Addr12) (h : op ≠ 0) :
    (wordNNN op nnn == 0x00E0#16) = false :=
  beq_false_of_opField (by rw [opField_wordNNN]; exact h)

theorem wordNNN_beq_ret (op : Nibble) (nnn : Addr12) (h : op ≠ 0) :
    (wordNNN op nnn == 0x00EE#16) = false :=
  beq_false_of_opField (by rw [opField_wordNNN]; exact h)

theorem wordXNN_beq_cls (op : Nibble) (x : Reg) (nn : Byte) (h : op ≠ 0) :
    (wordXNN op x nn == 0x00E0#16) = false :=
  beq_false_of_opField (by rw [opField_wordXNN]; exact h)

theorem wordXNN_beq_ret (op : Nibble) (x : Reg) (nn : Byte) (h : op ≠ 0) :
    (wordXNN op x nn == 0x00EE#16) = false :=
  beq_false_of_opField (by rw [opField_wordXNN]; exact h)

theorem wordXYN_beq_cls (op : Nibble) (x y : Reg) (n : Nibble) (h : op ≠ 0) :
    (wordXYN op x y n == 0x00E0#16) = false :=
  beq_false_of_opField (by rw [opField_wordXYN]; exact h)

theorem wordXYN_beq_ret (op : Nibble) (x y : Reg) (n : Nibble) (h : op ≠ 0) :
    (wordXYN op x y n == 0x00EE#16) = false :=
  beq_false_of_opField (by rw [opField_wordXYN]; exact h)

/-! ### The fields of a word as numbers -/

theorem opField_toNat (w : Word16) : (opField w).toNat = w.toNat / 0x1000 := by
  simp only [opField, BitVec.extractLsb'_toNat, Nat.shiftRight_eq_div_pow]
  omega

theorem nField_toNat (w : Word16) : (nField w).toNat = w.toNat % 0x10 := by
  simp [nField, BitVec.extractLsb'_toNat]

theorem nnField_toNat (w : Word16) : (nnField w).toNat = w.toNat % 0x100 := by
  simp [nnField, BitVec.extractLsb'_toNat]

/-- The two bytes of a word make the word (R32). -/
@[simp] theorem wordOfBytes_high_low (w : Word16) : wordOfBytes (highByte w) (lowByte w) = w := by
  apply BitVec.eq_of_getLsbD_eq
  intro i hi
  simp only [wordOfBytes, highByte, lowByte, BitVec.getLsbD_append, BitVec.getLsbD_extractLsb']
  interval_cases i <;> simp

end Sys2Proof
end

