-- ==== Sys2Proof/Laws/Memory.lean ====
section
/-! SUPPORT. The laws of the memory array: read after write, the frame of a write, and that every
write keeps the canonical form. -/

namespace Sys2Proof.Machine

/-! ### The frame of a write: no hypothesis on the memory -/

theorem Memory.read_write_other (m : Memory) (a c : Nat) (v : Byte) (h : c ≠ a) :
    (m.write a v).read c = m.read c := by
  induction m with
  | nil =>
    simp only [Memory.write]
    split <;> simp [Memory.read, h]
  | cons e m ih =>
    obtain ⟨b, w⟩ := e
    simp only [Memory.write]
    split
    · split <;> simp [Memory.read, h]
    · split
      · subst_vars
        split <;> simp [Memory.read, h]
      · simp only [Memory.read, ih]

/-! ### Canonical memories -/

theorem Memory.wfFrom_mono {m : Memory} {lo lo' : Nat} (h : lo' ≤ lo)
    (hm : Memory.wfFrom lo m = true) : Memory.wfFrom lo' m = true := by
  cases m with
  | nil => rfl
  | cons e m =>
    simp only [Memory.wfFrom, Bool.and_eq_true, decide_eq_true_eq] at hm ⊢
    exact ⟨⟨⟨by omega, hm.1.1.2⟩, hm.1.2⟩, hm.2⟩

/-- An address below every entry reads as unlisted. -/
theorem Memory.read_of_wfFrom_lt {m : Memory} {lo a : Nat} (hm : Memory.wfFrom lo m = true)
    (h : a < lo) : m.read a = Memory.unlisted a := by
  induction m generalizing lo with
  | nil => rfl
  | cons e m ih =>
    simp only [Memory.wfFrom, Bool.and_eq_true, decide_eq_true_eq] at hm
    have hne : a ≠ e.1 := by omega
    simp only [Memory.read, if_neg hne]
    exact ih hm.2 (by omega)

theorem Memory.read_write_same_from {m : Memory} {lo a : Nat} (v : Byte)
    (hm : Memory.wfFrom lo m = true) : (m.write a v).read a = v := by
  induction m generalizing lo with
  | nil =>
    simp only [Memory.write]
    split <;> simp_all [Memory.read]
  | cons e m ih =>
    obtain ⟨b, w⟩ := e
    simp only [Memory.wfFrom, Bool.and_eq_true, decide_eq_true_eq] at hm
    simp only [Memory.write]
    split
    · split
      · rename_i hab hv
        have := Memory.read_of_wfFrom_lt (a := a) hm.2 (by omega)
        simp [Memory.read, show a ≠ b by omega, this, hv]
      · simp [Memory.read]
    · split
      · subst_vars
        split
        · rename_i hv
          rw [Memory.read_of_wfFrom_lt hm.2 (by omega), hv]
        · simp [Memory.read]
      · rename_i hne
        simp only [Memory.read, if_neg hne]
        exact ih hm.2

/-- Read after write. -/
theorem Memory.read_write_same {m : Memory} (a : Nat) (v : Byte) (hm : m.wf = true) :
    (m.write a v).read a = v := Memory.read_write_same_from v hm

theorem Memory.read_write {m : Memory} (a c : Nat) (v : Byte) (hm : m.wf = true) :
    (m.write a v).read c = if c = a then v else m.read c := by
  split
  · subst_vars; exact Memory.read_write_same _ v hm
  · exact Memory.read_write_other m a c v ‹_›

theorem Memory.wfFrom_write {m : Memory} {lo a : Nat} (v : Byte) (hlo : lo ≤ a)
    (ha : a < Config.memSize) (hm : Memory.wfFrom lo m = true) :
    Memory.wfFrom lo (m.write a v) = true := by
  induction m generalizing lo with
  | nil =>
    simp only [Memory.write]
    split <;> simp_all [Memory.wfFrom]
  | cons e m ih =>
    obtain ⟨b, w⟩ := e
    have hm' := hm
    simp only [Memory.wfFrom, Bool.and_eq_true, decide_eq_true_eq] at hm
    obtain ⟨⟨⟨hb, hbs⟩, hw⟩, hrest⟩ := hm
    simp only [Memory.write]
    split
    · split
      · exact hm'
      · rename_i hab hv
        simp only [Memory.wfFrom, Bool.and_eq_true, decide_eq_true_eq]
        simp_all
    · split
      · subst_vars
        split
        · exact Memory.wfFrom_mono (by omega) hrest
        · simp_all [Memory.wfFrom]
      · have := ih (lo := b + 1) (by omega) hrest
        simp_all [Memory.wfFrom]

/-- A write inside the 4096 bytes keeps the canonical form. -/
theorem Memory.wf_write {m : Memory} {a : Nat} (v : Byte) (ha : a < Config.memSize)
    (hm : m.wf = true) : (m.write a v).wf = true := Memory.wfFrom_write v (Nat.zero_le a) ha hm

/-! ### Several bytes -/

theorem Memory.wf_writeList {m : Memory} {a : Nat} (bs : List Byte)
    (ha : a + bs.length ≤ Config.memSize) (hm : m.wf = true) : (m.writeList a bs).wf = true := by
  induction bs generalizing m a with
  | nil => exact hm
  | cons b bs ih =>
    simp only [List.length_cons] at ha
    exact ih (by omega) (Memory.wf_write b (by omega) hm)

theorem Memory.read_writeList_outside (m : Memory) (a c : Nat) (bs : List Byte)
    (h : c < a ∨ a + bs.length ≤ c) : (m.writeList a bs).read c = m.read c := by
  induction bs generalizing m a with
  | nil => rfl
  | cons b bs ih =>
    simp only [List.length_cons] at h
    rw [Memory.writeList, ih _ _ (by omega), Memory.read_write_other _ _ _ _ (by omega)]

theorem Memory.read_writeList_inside {m : Memory} {a k : Nat} (bs : List Byte)
    (hb : a + bs.length ≤ Config.memSize) (hm : m.wf = true) (hk : k < bs.length) :
    (m.writeList a bs).read (a + k) = bs[k] := by
  induction bs generalizing m a k with
  | nil => simp at hk
  | cons b bs ih =>
    simp only [List.length_cons] at hb hk
    have hm' := Memory.wf_write b (show a < Config.memSize by omega) hm
    cases k with
    | zero =>
      rw [Memory.writeList, Memory.read_writeList_outside _ _ _ _ (by omega)]
      exact Memory.read_write_same a b hm
    | succ k =>
      have := ih (m := m.write a b) (a := a + 1) (k := k) (by omega) hm' (by omega)
      rw [Memory.writeList, show a + (k + 1) = a + 1 + k by omega, this]
      rfl

end Sys2Proof.Machine
end

