-- ==== Sys2Proof/Laws/State.lean ====
section
/-! SUPPORT. One lemma per field for every named update of State: what it leaves unchanged is
unchanged, what it writes has the value written. -/

namespace Sys2Proof.Machine

/-! ### setReg -/

@[simp] theorem State.setReg_mem (s : State) (r : Reg) (b : Byte) :
    (s.setReg r b).mem = s.mem := rfl

@[simp] theorem State.setReg_pc (s : State) (r : Reg) (b : Byte) :
    (s.setReg r b).pc = s.pc := rfl

@[simp] theorem State.setReg_I (s : State) (r : Reg) (b : Byte) :
    (s.setReg r b).I = s.I := rfl

@[simp] theorem State.setReg_V (s : State) (r : Reg) (b : Byte) :
    (s.setReg r b).V = s.V.set r.val b := rfl

@[simp] theorem State.setReg_stack (s : State) (r : Reg) (b : Byte) :
    (s.setReg r b).stack = s.stack := rfl

@[simp] theorem State.setReg_sp (s : State) (r : Reg) (b : Byte) :
    (s.setReg r b).sp = s.sp := rfl

@[simp] theorem State.setReg_DT (s : State) (r : Reg) (b : Byte) :
    (s.setReg r b).DT = s.DT := rfl

@[simp] theorem State.setReg_ST (s : State) (r : Reg) (b : Byte) :
    (s.setReg r b).ST = s.ST := rfl

@[simp] theorem State.setReg_key (s : State) (r : Reg) (b : Byte) :
    (s.setReg r b).key = s.key := rfl

@[simp] theorem State.setReg_disp (s : State) (r : Reg) (b : Byte) :
    (s.setReg r b).disp = s.disp := rfl

@[simp] theorem State.setReg_opcode (s : State) (r : Reg) (b : Byte) :
    (s.setReg r b).opcode = s.opcode := rfl

@[simp] theorem State.setReg_halted (s : State) (r : Reg) (b : Byte) :
    (s.setReg r b).halted = s.halted := rfl

@[simp] theorem State.setReg_fault (s : State) (r : Reg) (b : Byte) :
    (s.setReg r b).fault = s.fault := rfl

@[simp] theorem State.setReg_report (s : State) (r : Reg) (b : Byte) :
    (s.setReg r b).report = s.report := rfl

@[simp] theorem State.setReg_draws (s : State) (r : Reg) (b : Byte) :
    (s.setReg r b).draws = s.draws := rfl

/-! ### setFlag -/

@[simp] theorem State.setFlag_mem (s : State) (b : Bool) :
    (s.setFlag b).mem = s.mem := rfl

@[simp] theorem State.setFlag_pc (s : State) (b : Bool) :
    (s.setFlag b).pc = s.pc := rfl

@[simp] theorem State.setFlag_I (s : State) (b : Bool) :
    (s.setFlag b).I = s.I := rfl

@[simp] theorem State.setFlag_stack (s : State) (b : Bool) :
    (s.setFlag b).stack = s.stack := rfl

@[simp] theorem State.setFlag_sp (s : State) (b : Bool) :
    (s.setFlag b).sp = s.sp := rfl

@[simp] theorem State.setFlag_DT (s : State) (b : Bool) :
    (s.setFlag b).DT = s.DT := rfl

@[simp] theorem State.setFlag_ST (s : State) (b : Bool) :
    (s.setFlag b).ST = s.ST := rfl

@[simp] theorem State.setFlag_key (s : State) (b : Bool) :
    (s.setFlag b).key = s.key := rfl

@[simp] theorem State.setFlag_disp (s : State) (b : Bool) :
    (s.setFlag b).disp = s.disp := rfl

@[simp] theorem State.setFlag_opcode (s : State) (b : Bool) :
    (s.setFlag b).opcode = s.opcode := rfl

@[simp] theorem State.setFlag_halted (s : State) (b : Bool) :
    (s.setFlag b).halted = s.halted := rfl

@[simp] theorem State.setFlag_fault (s : State) (b : Bool) :
    (s.setFlag b).fault = s.fault := rfl

@[simp] theorem State.setFlag_report (s : State) (b : Bool) :
    (s.setFlag b).report = s.report := rfl

@[simp] theorem State.setFlag_draws (s : State) (b : Bool) :
    (s.setFlag b).draws = s.draws := rfl

/-! ### setRegFlag -/

@[simp] theorem State.setRegFlag_mem (s : State) (x : Reg) (b : Byte) (f : Bool) :
    (s.setRegFlag x b f).mem = s.mem := rfl

@[simp] theorem State.setRegFlag_pc (s : State) (x : Reg) (b : Byte) (f : Bool) :
    (s.setRegFlag x b f).pc = s.pc := rfl

@[simp] theorem State.setRegFlag_I (s : State) (x : Reg) (b : Byte) (f : Bool) :
    (s.setRegFlag x b f).I = s.I := rfl

@[simp] theorem State.setRegFlag_stack (s : State) (x : Reg) (b : Byte) (f : Bool) :
    (s.setRegFlag x b f).stack = s.stack := rfl

@[simp] theorem State.setRegFlag_sp (s : State) (x : Reg) (b : Byte) (f : Bool) :
    (s.setRegFlag x b f).sp = s.sp := rfl

@[simp] theorem State.setRegFlag_DT (s : State) (x : Reg) (b : Byte) (f : Bool) :
    (s.setRegFlag x b f).DT = s.DT := rfl

@[simp] theorem State.setRegFlag_ST (s : State) (x : Reg) (b : Byte) (f : Bool) :
    (s.setRegFlag x b f).ST = s.ST := rfl

@[simp] theorem State.setRegFlag_key (s : State) (x : Reg) (b : Byte) (f : Bool) :
    (s.setRegFlag x b f).key = s.key := rfl

@[simp] theorem State.setRegFlag_disp (s : State) (x : Reg) (b : Byte) (f : Bool) :
    (s.setRegFlag x b f).disp = s.disp := rfl

@[simp] theorem State.setRegFlag_opcode (s : State) (x : Reg) (b : Byte) (f : Bool) :
    (s.setRegFlag x b f).opcode = s.opcode := rfl

@[simp] theorem State.setRegFlag_halted (s : State) (x : Reg) (b : Byte) (f : Bool) :
    (s.setRegFlag x b f).halted = s.halted := rfl

@[simp] theorem State.setRegFlag_fault (s : State) (x : Reg) (b : Byte) (f : Bool) :
    (s.setRegFlag x b f).fault = s.fault := rfl

@[simp] theorem State.setRegFlag_report (s : State) (x : Reg) (b : Byte) (f : Bool) :
    (s.setRegFlag x b f).report = s.report := rfl

@[simp] theorem State.setRegFlag_draws (s : State) (x : Reg) (b : Byte) (f : Bool) :
    (s.setRegFlag x b f).draws = s.draws := rfl

/-! ### nextDraw -/

@[simp] theorem State.nextDraw_mem (s : State) :
    (s.nextDraw).mem = s.mem := rfl

@[simp] theorem State.nextDraw_pc (s : State) :
    (s.nextDraw).pc = s.pc := rfl

@[simp] theorem State.nextDraw_I (s : State) :
    (s.nextDraw).I = s.I := rfl

@[simp] theorem State.nextDraw_V (s : State) :
    (s.nextDraw).V = s.V := rfl

@[simp] theorem State.nextDraw_stack (s : State) :
    (s.nextDraw).stack = s.stack := rfl

@[simp] theorem State.nextDraw_sp (s : State) :
    (s.nextDraw).sp = s.sp := rfl

@[simp] theorem State.nextDraw_DT (s : State) :
    (s.nextDraw).DT = s.DT := rfl

@[simp] theorem State.nextDraw_ST (s : State) :
    (s.nextDraw).ST = s.ST := rfl

@[simp] theorem State.nextDraw_key (s : State) :
    (s.nextDraw).key = s.key := rfl

@[simp] theorem State.nextDraw_disp (s : State) :
    (s.nextDraw).disp = s.disp := rfl

@[simp] theorem State.nextDraw_opcode (s : State) :
    (s.nextDraw).opcode = s.opcode := rfl

@[simp] theorem State.nextDraw_halted (s : State) :
    (s.nextDraw).halted = s.halted := rfl

@[simp] theorem State.nextDraw_fault (s : State) :
    (s.nextDraw).fault = s.fault := rfl

@[simp] theorem State.nextDraw_report (s : State) :
    (s.nextDraw).report = s.report := rfl

@[simp] theorem State.nextDraw_draws (s : State) :
    (s.nextDraw).draws = s.draws + 1 := rfl

/-! ### skipIf -/

@[simp] theorem State.skipIf_mem (s : State) (c : Bool) :
    (s.skipIf c).mem = s.mem := by cases c <;> rfl

@[simp] theorem State.skipIf_pc (s : State) (c : Bool) :
    (s.skipIf c).pc = if c then s.pc + 2 else s.pc := by cases c <;> rfl

@[simp] theorem State.skipIf_I (s : State) (c : Bool) :
    (s.skipIf c).I = s.I := by cases c <;> rfl

@[simp] theorem State.skipIf_V (s : State) (c : Bool) :
    (s.skipIf c).V = s.V := by cases c <;> rfl

@[simp] theorem State.skipIf_stack (s : State) (c : Bool) :
    (s.skipIf c).stack = s.stack := by cases c <;> rfl

@[simp] theorem State.skipIf_sp (s : State) (c : Bool) :
    (s.skipIf c).sp = s.sp := by cases c <;> rfl

@[simp] theorem State.skipIf_DT (s : State) (c : Bool) :
    (s.skipIf c).DT = s.DT := by cases c <;> rfl

@[simp] theorem State.skipIf_ST (s : State) (c : Bool) :
    (s.skipIf c).ST = s.ST := by cases c <;> rfl

@[simp] theorem State.skipIf_key (s : State) (c : Bool) :
    (s.skipIf c).key = s.key := by cases c <;> rfl

@[simp] theorem State.skipIf_disp (s : State) (c : Bool) :
    (s.skipIf c).disp = s.disp := by cases c <;> rfl

@[simp] theorem State.skipIf_opcode (s : State) (c : Bool) :
    (s.skipIf c).opcode = s.opcode := by cases c <;> rfl

@[simp] theorem State.skipIf_halted (s : State) (c : Bool) :
    (s.skipIf c).halted = s.halted := by cases c <;> rfl

@[simp] theorem State.skipIf_fault (s : State) (c : Bool) :
    (s.skipIf c).fault = s.fault := by cases c <;> rfl

@[simp] theorem State.skipIf_report (s : State) (c : Bool) :
    (s.skipIf c).report = s.report := by cases c <;> rfl

@[simp] theorem State.skipIf_draws (s : State) (c : Bool) :
    (s.skipIf c).draws = s.draws := by cases c <;> rfl

/-! ### raise -/

@[simp] theorem raise_mem (f : Fault) (s : State) :
    (raise f s).mem = s.mem := rfl

@[simp] theorem raise_pc (f : Fault) (s : State) :
    (raise f s).pc = s.pc := rfl

@[simp] theorem raise_I (f : Fault) (s : State) :
    (raise f s).I = s.I := rfl

@[simp] theorem raise_V (f : Fault) (s : State) :
    (raise f s).V = s.V := rfl

@[simp] theorem raise_stack (f : Fault) (s : State) :
    (raise f s).stack = s.stack := rfl

@[simp] theorem raise_sp (f : Fault) (s : State) :
    (raise f s).sp = s.sp := rfl

@[simp] theorem raise_DT (f : Fault) (s : State) :
    (raise f s).DT = s.DT := rfl

@[simp] theorem raise_ST (f : Fault) (s : State) :
    (raise f s).ST = s.ST := rfl

@[simp] theorem raise_key (f : Fault) (s : State) :
    (raise f s).key = s.key := rfl

@[simp] theorem raise_disp (f : Fault) (s : State) :
    (raise f s).disp = s.disp := rfl

@[simp] theorem raise_opcode (f : Fault) (s : State) :
    (raise f s).opcode = s.opcode := rfl

@[simp] theorem raise_halted (f : Fault) (s : State) :
    (raise f s).halted = true := rfl

@[simp] theorem raise_fault (f : Fault) (s : State) :
    (raise f s).fault = some ⟨f, s.pc, s.opcode⟩ := rfl

@[simp] theorem raise_report (f : Fault) (s : State) :
    (raise f s).report = s.report := rfl

@[simp] theorem raise_draws (f : Fault) (s : State) :
    (raise f s).draws = s.draws := rfl

/-! ### tick -/

@[simp] theorem tick_mem (s : State) :
    (tick s).mem = s.mem := rfl

@[simp] theorem tick_pc (s : State) :
    (tick s).pc = s.pc := rfl

@[simp] theorem tick_I (s : State) :
    (tick s).I = s.I := rfl

@[simp] theorem tick_V (s : State) :
    (tick s).V = s.V := rfl

@[simp] theorem tick_stack (s : State) :
    (tick s).stack = s.stack := rfl

@[simp] theorem tick_sp (s : State) :
    (tick s).sp = s.sp := rfl

@[simp] theorem tick_DT (s : State) :
    (tick s).DT = tickTimer s.DT := rfl

@[simp] theorem tick_ST (s : State) :
    (tick s).ST = tickTimer s.ST := rfl

@[simp] theorem tick_key (s : State) :
    (tick s).key = s.key := rfl

@[simp] theorem tick_disp (s : State) :
    (tick s).disp = s.disp := rfl

@[simp] theorem tick_opcode (s : State) :
    (tick s).opcode = s.opcode := rfl

@[simp] theorem tick_halted (s : State) :
    (tick s).halted = s.halted := rfl

@[simp] theorem tick_fault (s : State) :
    (tick s).fault = s.fault := rfl

@[simp] theorem tick_report (s : State) :
    (tick s).report = s.report := rfl

@[simp] theorem tick_draws (s : State) :
    (tick s).draws = s.draws := rfl

/-! ### beginCycle -/

@[simp] theorem beginCycle_mem (s : State) :
    (beginCycle s).mem = s.mem := rfl

@[simp] theorem beginCycle_pc (s : State) :
    (beginCycle s).pc = s.pc := rfl

@[simp] theorem beginCycle_I (s : State) :
    (beginCycle s).I = s.I := rfl

@[simp] theorem beginCycle_V (s : State) :
    (beginCycle s).V = s.V := rfl

@[simp] theorem beginCycle_stack (s : State) :
    (beginCycle s).stack = s.stack := rfl

@[simp] theorem beginCycle_sp (s : State) :
    (beginCycle s).sp = s.sp := rfl

@[simp] theorem beginCycle_DT (s : State) :
    (beginCycle s).DT = s.DT := rfl

@[simp] theorem beginCycle_ST (s : State) :
    (beginCycle s).ST = s.ST := rfl

@[simp] theorem beginCycle_key (s : State) :
    (beginCycle s).key = s.key := rfl

@[simp] theorem beginCycle_disp (s : State) :
    (beginCycle s).disp = s.disp := rfl

@[simp] theorem beginCycle_opcode (s : State) :
    (beginCycle s).opcode = s.opcode := rfl

@[simp] theorem beginCycle_halted (s : State) :
    (beginCycle s).halted = s.halted := rfl

@[simp] theorem beginCycle_fault (s : State) :
    (beginCycle s).fault = s.fault := rfl

@[simp] theorem beginCycle_report (s : State) :
    (beginCycle s).report = none := rfl

@[simp] theorem beginCycle_draws (s : State) :
    (beginCycle s).draws = s.draws := rfl

/-! ### setRegsFrom -/

@[simp] theorem State.setRegsFrom_mem (s : State) (k : Nat) (bs : List Byte) :
    (s.setRegsFrom k bs).mem = s.mem := by
  induction bs generalizing s k with
  | nil => rfl
  | cons b bs ih => exact ih _ _

@[simp] theorem State.setRegsFrom_pc (s : State) (k : Nat) (bs : List Byte) :
    (s.setRegsFrom k bs).pc = s.pc := by
  induction bs generalizing s k with
  | nil => rfl
  | cons b bs ih => exact ih _ _

@[simp] theorem State.setRegsFrom_I (s : State) (k : Nat) (bs : List Byte) :
    (s.setRegsFrom k bs).I = s.I := by
  induction bs generalizing s k with
  | nil => rfl
  | cons b bs ih => exact ih _ _

@[simp] theorem State.setRegsFrom_stack (s : State) (k : Nat) (bs : List Byte) :
    (s.setRegsFrom k bs).stack = s.stack := by
  induction bs generalizing s k with
  | nil => rfl
  | cons b bs ih => exact ih _ _

@[simp] theorem State.setRegsFrom_sp (s : State) (k : Nat) (bs : List Byte) :
    (s.setRegsFrom k bs).sp = s.sp := by
  induction bs generalizing s k with
  | nil => rfl
  | cons b bs ih => exact ih _ _

@[simp] theorem State.setRegsFrom_DT (s : State) (k : Nat) (bs : List Byte) :
    (s.setRegsFrom k bs).DT = s.DT := by
  induction bs generalizing s k with
  | nil => rfl
  | cons b bs ih => exact ih _ _

@[simp] theorem State.setRegsFrom_ST (s : State) (k : Nat) (bs : List Byte) :
    (s.setRegsFrom k bs).ST = s.ST := by
  induction bs generalizing s k with
  | nil => rfl
  | cons b bs ih => exact ih _ _

@[simp] theorem State.setRegsFrom_key (s : State) (k : Nat) (bs : List Byte) :
    (s.setRegsFrom k bs).key = s.key := by
  induction bs generalizing s k with
  | nil => rfl
  | cons b bs ih => exact ih _ _

@[simp] theorem State.setRegsFrom_disp (s : State) (k : Nat) (bs : List Byte) :
    (s.setRegsFrom k bs).disp = s.disp := by
  induction bs generalizing s k with
  | nil => rfl
  | cons b bs ih => exact ih _ _

@[simp] theorem State.setRegsFrom_opcode (s : State) (k : Nat) (bs : List Byte) :
    (s.setRegsFrom k bs).opcode = s.opcode := by
  induction bs generalizing s k with
  | nil => rfl
  | cons b bs ih => exact ih _ _

@[simp] theorem State.setRegsFrom_halted (s : State) (k : Nat) (bs : List Byte) :
    (s.setRegsFrom k bs).halted = s.halted := by
  induction bs generalizing s k with
  | nil => rfl
  | cons b bs ih => exact ih _ _

@[simp] theorem State.setRegsFrom_fault (s : State) (k : Nat) (bs : List Byte) :
    (s.setRegsFrom k bs).fault = s.fault := by
  induction bs generalizing s k with
  | nil => rfl
  | cons b bs ih => exact ih _ _

@[simp] theorem State.setRegsFrom_report (s : State) (k : Nat) (bs : List Byte) :
    (s.setRegsFrom k bs).report = s.report := by
  induction bs generalizing s k with
  | nil => rfl
  | cons b bs ih => exact ih _ _

@[simp] theorem State.setRegsFrom_draws (s : State) (k : Nat) (bs : List Byte) :
    (s.setRegsFrom k bs).draws = s.draws := by
  induction bs generalizing s k with
  | nil => rfl
  | cons b bs ih => exact ih _ _

/-! ### Reading a register after a write -/

theorem State.reg_setReg (s : State) (r q : Reg) (b : Byte) :
    (s.setReg r b).reg q = if r = q then b else s.reg q := by
  simp only [State.reg, State.setReg, Vector.getElem_set, Fin.ext_iff]

@[simp] theorem State.reg_setReg_same (s : State) (r : Reg) (b : Byte) :
    (s.setReg r b).reg r = b := by simp [State.reg_setReg]

theorem State.reg_setReg_other (s : State) {r q : Reg} (b : Byte) (h : q ≠ r) :
    (s.setReg r b).reg q = s.reg q := by simp [State.reg_setReg, Ne.symm h]

@[simp] theorem State.reg_setFlag_flag (s : State) (b : Bool) :
    (s.setFlag b).reg Reg.flag = flagByte b := by simp [State.setFlag]

theorem State.reg_setFlag_other (s : State) {q : Reg} (b : Bool) (h : q ≠ Reg.flag) :
    (s.setFlag b).reg q = s.reg q := State.reg_setReg_other s _ h

@[simp] theorem State.reg_setRegFlag_flag (s : State) (x : Reg) (b : Byte) (f : Bool) :
    (s.setRegFlag x b f).reg Reg.flag = flagByte f := by simp [State.setRegFlag]

theorem State.reg_setRegFlag_dest (s : State) {x : Reg} (b : Byte) (f : Bool) (h : x ≠ Reg.flag) :
    (s.setRegFlag x b f).reg x = b := by
  simp [State.setRegFlag, State.reg_setFlag_other, h]

theorem State.reg_setRegFlag_other (s : State) {x q : Reg} (b : Byte) (f : Bool)
    (hx : q ≠ x) (hf : q ≠ Reg.flag) : (s.setRegFlag x b f).reg q = s.reg q := by
  simp [State.setRegFlag, State.reg_setFlag_other, State.reg_setReg_other, hx, hf]

@[simp] theorem State.reg_skipIf (s : State) (c : Bool) (r : Reg) :
    (s.skipIf c).reg r = s.reg r := by cases c <;> rfl

@[simp] theorem State.reg_nextDraw (s : State) (r : Reg) : s.nextDraw.reg r = s.reg r := rfl

@[simp] theorem raise_reg (f : Fault) (s : State) (r : Reg) : (raise f s).reg r = s.reg r := rfl

@[simp] theorem tick_reg (s : State) (r : Reg) : (tick s).reg r = s.reg r := rfl

@[simp] theorem beginCycle_reg (s : State) (r : Reg) : (beginCycle s).reg r = s.reg r := rfl

/-- Two register files are equal when every register reads the same. -/
theorem State.V_ext {s t : State} (h : ∀ r : Reg, s.reg r = t.reg r) : s.V = t.V := by
  apply Vector.ext
  intro i hi
  exact h ⟨i, hi⟩

end Sys2Proof.Machine
end

