-- ==== Sys2Proof/Laws/Ops.lean ====
section
/-! SUPPORT. One lemma per shared operation: everything it can answer. -/

namespace Sys2Proof.Machine

/-! ### complete -/

@[simp] theorem complete_ok (s t : State) : complete s (.ok t) = .next t := rfl

@[simp] theorem complete_error (s : State) (f : Fault) :
    complete s (.error f) = .next (raise f s) := rfl

/-- A handler answers a next state, whatever it meets. -/
theorem complete_next (s : State) (r : Except Fault State) : ∃ t, complete s r = .next t := by
  cases r with
  | ok t => exact ⟨t, rfl⟩
  | error f => exact ⟨raise f s, rfl⟩

/-! ### The range check -/

theorem checkRange_ok {base m : Nat} (h : m = 0 ∨ base + m ≤ 0x1000) : checkRange base m = .ok () := by
  simp only [checkRange, ite_eq_right_iff]
  omega

theorem checkRange_error {base m : Nat} (hm : 1 ≤ m) (h : 0x1000 < base + m) :
    checkRange base m = .error .dataAccessOutOfBounds := by
  simp only [checkRange, ite_eq_left_iff]
  omega

/-! ### Loads -/

theorem State.readBytes_eq (s : State) {a n : Nat} (h : n = 0 ∨ a + n ≤ 0x1000) :
    s.readBytes a n = .ok ((List.range n).map fun k => s.mem.read (a + k)) := by
  induction n generalizing a with
  | zero => rfl
  | succ n ih =>
    have ha : a ≤ 0xFFF := by omega
    rw [State.readBytes, State.memRead, if_pos ha, ih (by omega), List.range_succ_eq_map]
    simp [Function.comp_def, Nat.add_assoc, Nat.add_comm 1, Except.bind, bind, pure, Except.pure]

theorem State.loadBytes_ok (s : State) {a n : Nat} (h : n = 0 ∨ a + n ≤ 0x1000) :
    s.loadBytes a n = .ok ((List.range n).map fun k => s.mem.read (a + k)) := by
  rw [State.loadBytes, checkRange_ok h, State.readBytes_eq s h]
  rfl

theorem State.loadBytes_error (s : State) {a n : Nat} (hn : 1 ≤ n) (h : 0x1000 < a + n) :
    s.loadBytes a n = .error .dataAccessOutOfBounds := by
  rw [State.loadBytes, checkRange_error hn h]
  rfl

/-! ### Stores -/

theorem State.writeBytes_eq (s : State) {a : Nat} {bs : List Byte}
    (h : bs.length = 0 ∨ a + bs.length ≤ 0x1000) :
    s.writeBytes a bs = .ok { s with mem := s.mem.writeList a bs } := by
  induction bs generalizing s a with
  | nil => rfl
  | cons b bs ih =>
    simp only [List.length_cons] at h
    have ha : a ≤ 0xFFF := by omega
    rw [State.writeBytes, State.memWrite, if_pos ha]
    exact ih _ (by omega)

theorem State.storeBytes_ok (s : State) {a : Nat} {bs : List Byte}
    (h : bs.length = 0 ∨ a + bs.length ≤ 0x1000) :
    s.storeBytes a bs = .ok { s with mem := s.mem.writeList a bs } := by
  rw [State.storeBytes, checkRange_ok h, ← State.writeBytes_eq s h]
  rfl

theorem State.storeBytes_error (s : State) {a : Nat} {bs : List Byte} (hn : 1 ≤ bs.length)
    (h : 0x1000 < a + bs.length) : s.storeBytes a bs = .error .dataAccessOutOfBounds := by
  rw [State.storeBytes, checkRange_error hn h]
  rfl

/-- A store keeps the canonical form, whatever its address. -/
theorem State.wf_storeBytes {s t : State} {a : Nat} {bs : List Byte}
    (h : s.storeBytes a bs = .ok t) (hm : s.mem.wf = true) : t.mem.wf = true := by
  by_cases hr : bs.length = 0 ∨ a + bs.length ≤ 0x1000
  · rw [State.storeBytes_ok s hr] at h
    cases h
    rcases hr with h0 | hr
    · rw [List.length_eq_zero_iff] at h0
      subst h0
      exact hm
    · exact Memory.wf_writeList bs hr hm
  · rw [State.storeBytes_error s (by omega) (by omega)] at h
    cases h

/-- One byte written keeps the canonical form, whatever its address. -/
theorem State.wf_memWrite {s t : State} {a : Nat} {v : Byte}
    (h : s.memWrite a v = .ok t) (hm : s.mem.wf = true) : t.mem.wf = true := by
  rw [State.memWrite] at h
  split at h
  · cases h
    exact Memory.wf_write v (by simp only [Config.memSize]; omega) hm
  · cases h

/-! ### The stack -/

theorem State.pushCall_ok (s : State) (target : Word16) (h : s.sp.val < 16) :
    s.pushCall target = .ok { s with
      stack := s.stack.set s.sp.val s.pc h, sp := ⟨s.sp.val + 1, by omega⟩, pc := target } := by
  rw [State.pushCall, dif_pos h]

theorem State.pushCall_error (s : State) (target : Word16) (h : s.sp.val = 16) :
    s.pushCall target = .error .stackOverflow := by
  rw [State.pushCall, dif_neg (by omega)]

theorem State.popReturn_ok (s : State) (h : 0 < s.sp.val) :
    s.popReturn = .ok { s with
      sp := ⟨s.sp.val - 1, by omega⟩, pc := s.stack[s.sp.val - 1]'(by omega) } := by
  rw [State.popReturn, dif_pos h]

theorem State.popReturn_error (s : State) (h : s.sp.val = 0) :
    s.popReturn = .error .stackUnderflow := by
  rw [State.popReturn, dif_neg (by omega)]

/-! ### Keys -/

theorem keyIndex_ok (b : Byte) (h : b.toNat ≤ 0x0F) :
    keyIndex b = .ok ⟨b.toNat, by omega⟩ := by rw [keyIndex, dif_pos h]

theorem keyIndex_error (b : Byte) (h : 0x0F < b.toNat) :
    keyIndex b = .error .keyIndexOutOfRange := by rw [keyIndex, dif_neg (by omega)]

theorem State.lowestKey_none {s : State} : s.lowestKey = none ↔ ∀ k, s.keyDown k = false := by
  simp [State.lowestKey, List.find?_eq_none]

/-- The key found is down, and none below it is. -/
theorem State.lowestKey_some {s : State} {k : Fin 16} (h : s.lowestKey = some k) :
    s.keyDown k = true ∧ ∀ j, j < k → s.keyDown j = false := by
  rw [State.lowestKey, List.find?_eq_some_iff_getElem] at h
  obtain ⟨hk, i, hi, hik, hlt⟩ := h
  refine ⟨hk, fun j hj => ?_⟩
  have hi' : i = k.val := by simpa using congrArg Fin.val hik
  have := hlt j.val (by omega)
  simpa using this

/-! ### Block transfers -/

@[simp] theorem State.length_regsUpTo (s : State) (x : Reg) :
    (s.regsUpTo x).length = x.val + 1 := by
  simp [State.regsUpTo]

theorem State.getElem_regsUpTo (s : State) (x : Reg) (k : Nat) (h : k < (s.regsUpTo x).length) :
    (s.regsUpTo x)[k] = s.reg ⟨k, by simp at h; omega⟩ := by
  simp [State.regsUpTo, State.reg]

@[simp] theorem length_decimalDigits (v : Byte) : (decimalDigits v).length = 3 := rfl

/-- Registers from `k` on receive the bytes, the others keep their values. -/
theorem State.reg_setRegsFrom (s : State) (k : Nat) (bs : List Byte) (r : Reg) :
    (s.setRegsFrom k bs).reg r =
      if k ≤ r.val then bs.getD (r.val - k) (s.reg r) else s.reg r := by
  induction bs generalizing s k with
  | nil => simp [State.setRegsFrom]
  | cons b bs ih =>
    rw [State.setRegsFrom, ih]
    simp only [State.reg, Vector.getElem_setIfInBounds]
    by_cases h1 : k + 1 ≤ r.val
    · have : r.val - k = (r.val - (k + 1)) + 1 := by omega
      rw [if_pos h1, if_pos (show k ≤ r.val by omega), if_neg (show ¬ k = r.val by omega), this,
        List.getD_cons_succ]
    · by_cases h2 : k = r.val
      · subst h2
        simp
      · rw [if_neg h1, if_neg h2, if_neg (show ¬ k ≤ r.val by omega)]

/-! ### The stages of a cycle -/

theorem fetch_ok (s : State) (h : s.pc.toNat ≤ 0x0FFE) :
    fetch s = .ok { s with
      opcode := wordOfBytes (s.mem.read s.pc.toNat) (s.mem.read (s.pc.toNat + 1))
      pc := s.pc + 2 } := by
  rw [fetch, if_neg (by omega), State.memRead, if_pos (by omega), State.memRead, if_pos (by omega)]
  rfl

theorem fetch_error (s : State) (h : 0x0FFE < s.pc.toNat) :
    fetch s = .error .fetchOutOfBounds := by rw [fetch, if_pos h]

@[simp] theorem endCycle_next (t : State) :
    endCycle (.next t) = .next (if t.halted then t else tick t) := rfl

/-- A timer's tick as a number: down by one, never below zero (R17). -/
theorem tickTimer_toNat (t : Byte) : (tickTimer t).toNat = t.toNat - 1 := by
  rw [tickTimer]
  split
  · subst_vars; rfl
  · bv_omega

@[simp] theorem flagByte_true : flagByte true = 0x01 := rfl

@[simp] theorem flagByte_false : flagByte false = 0x00 := rfl

end Sys2Proof.Machine
end

