-- ==== Sys2Proof/Laws/Exec.lean ====
section
/-! SUPPORT. The meanings that can meet a fatal condition, in closed form: the next state where
they complete, and the fault where they do not. -/

namespace Sys2Proof.Machine

/-! ### RET and CALL -/

theorem execRet_ok (s : State) (h : 0 < s.sp.val) :
    execRet s = .next { s with
      sp := ⟨s.sp.val - 1, by omega⟩, pc := s.stack[s.sp.val - 1]'(by omega) } := by
  rw [execRet, State.popReturn_ok s h, complete_ok]

theorem execRet_error (s : State) (h : s.sp.val = 0) :
    execRet s = .next (raise .stackUnderflow s) := by
  rw [execRet, State.popReturn_error s h, complete_error]

theorem execCall_ok (nnn : Addr12) (s : State) (h : s.sp.val < 16) :
    execCall nnn s = .next { s with
      stack := s.stack.set s.sp.val s.pc h, sp := ⟨s.sp.val + 1, by omega⟩
      pc := zextAddr nnn } := by
  rw [execCall, State.pushCall_ok s _ h, complete_ok]

theorem execCall_error (nnn : Addr12) (s : State) (h : s.sp.val = 16) :
    execCall nnn s = .next (raise .stackOverflow s) := by
  rw [execCall, State.pushCall_error s _ h, complete_error]

/-! ### Memory -/

theorem execLdB_ok (x : Reg) (s : State) (h : s.I.toNat + 2 ≤ 0xFFF) :
    execLdB x s =
      .next { s with mem := s.mem.writeList s.I.toNat (decimalDigits (s.reg x)) } := by
  rw [execLdB, State.storeBytes_ok s (by simp; omega), complete_ok]

theorem execLdB_error (x : Reg) (s : State) (h : s.I.toNat + 2 > 0xFFF) :
    execLdB x s = .next (raise .dataAccessOutOfBounds s) := by
  rw [execLdB, State.storeBytes_error s (by simp) (by simp; omega), complete_error]

theorem execStoreRegs_ok (x : Reg) (s : State) (h : s.I.toNat + x.val ≤ 0xFFF) :
    execStoreRegs x s =
      .next { s with mem := s.mem.writeList s.I.toNat (s.regsUpTo x) } := by
  rw [execStoreRegs, State.storeBytes_ok s (by simp; omega), complete_ok]

theorem execStoreRegs_error (x : Reg) (s : State) (h : s.I.toNat + x.val > 0xFFF) :
    execStoreRegs x s = .next (raise .dataAccessOutOfBounds s) := by
  rw [execStoreRegs, State.storeBytes_error s (by simp) (by simp; omega), complete_error]

/-- The bytes of `m` addresses from `a` on. -/
def Memory.bytesAt (m : Memory) (a n : Nat) : List Byte :=
  (List.range n).map fun k => m.read (a + k)

@[simp] theorem Memory.length_bytesAt (m : Memory) (a n : Nat) :
    (m.bytesAt a n).length = n := by simp [Memory.bytesAt]

theorem Memory.getD_bytesAt (m : Memory) {a n k : Nat} (d : Byte) (h : k < n) :
    (m.bytesAt a n).getD k d = m.read (a + k) := by
  simp [Memory.bytesAt, List.getElem?_range h]

theorem Memory.getD_bytesAt_past (m : Memory) {a n k : Nat} (d : Byte) (h : n ≤ k) :
    (m.bytesAt a n).getD k d = d := by
  simp [Memory.bytesAt, h]

theorem execLoadRegs_ok (x : Reg) (s : State) (h : s.I.toNat + x.val ≤ 0xFFF) :
    execLoadRegs x s = .next (s.setRegsFrom 0 (s.mem.bytesAt s.I.toNat (x.val + 1))) := by
  rw [execLoadRegs, State.loadBytes_ok s (by omega)]
  rfl

theorem execLoadRegs_error (x : Reg) (s : State) (h : s.I.toNat + x.val > 0xFFF) :
    execLoadRegs x s = .next (raise .dataAccessOutOfBounds s) := by
  rw [execLoadRegs, State.loadBytes_error s (by omega) (by omega)]
  rfl

/-! ### DRW -/

theorem execDrw_ok (x y : Reg) (n : Nibble) (s : State)
    (h : n.toNat = 0 ∨ s.I.toNat + n.toNat - 1 ≤ 0xFFF) :
    let drawn := drawSprite (s.mem.bytesAt s.I.toNat n.toNat) (originRow (s.reg y))
      (originCol (s.reg x)) (s.disp, false)
    execDrw x y n s = .next (State.setFlag { s with disp := drawn.1 } drawn.2) := by
  rw [execDrw, State.loadBytes_ok s (by omega)]
  rfl

theorem execDrw_error (x y : Reg) (n : Nibble) (s : State) (h1 : 1 ≤ n.toNat)
    (h : s.I.toNat + n.toNat - 1 > 0xFFF) :
    execDrw x y n s = .next (raise .dataAccessOutOfBounds s) := by
  rw [execDrw, State.loadBytes_error s (by omega) (by omega)]
  rfl

/-! ### SKP and SKNP -/

theorem execSkp_ok (x : Reg) (s : State) (h : (s.reg x).toNat ≤ 0x0F) :
    execSkp x s = .next (s.skipIf (s.keyDown ⟨(s.reg x).toNat, by omega⟩)) := by
  rw [execSkp, keyIndex_ok _ h]
  rfl

theorem execSkp_error (x : Reg) (s : State) (h : (s.reg x).toNat > 0x0F) :
    execSkp x s = .next (raise .keyIndexOutOfRange s) := by
  rw [execSkp, keyIndex_error _ h]
  rfl

theorem execSknp_ok (x : Reg) (s : State) (h : (s.reg x).toNat ≤ 0x0F) :
    execSknp x s = .next (s.skipIf (!s.keyDown ⟨(s.reg x).toNat, by omega⟩)) := by
  rw [execSknp, keyIndex_ok _ h]
  rfl

theorem execSknp_error (x : Reg) (s : State) (h : (s.reg x).toNat > 0x0F) :
    execSknp x s = .next (raise .keyIndexOutOfRange s) := by
  rw [execSknp, keyIndex_error _ h]
  rfl

end Sys2Proof.Machine
end

