-- ==== Sys2Proof/Laws/PerInstr.lean ====
section
/-! SUPPORT. Per-instruction laws about the instruction as syntax. TableRow: the word the encoder
gives a well-formed instruction selects, in the map of spec/30_encoding.md R64, the
instruction's own row. -/

set_option linter.unusedSimpArgs false

namespace Sys2Proof.Laws.TableRow

/-- The encoder's word carries the fixed bits of the instruction's row. -/
def Statement (i : Instr) : Prop := i.wf = true → tableMnemonic (encode i) = i.mnemonic

theorem cls : Statement .cls := by
  intro _
  decide

theorem ret : Statement .ret := by
  intro _
  decide

theorem jp (nnn : Addr12) : Statement (.jp nnn) := by
  intro _
  simp [tableMnemonic, opcodeTable, List.find?, match_op, match_op_n, match_op_nn,
    and_mask_all, wordNNN_beq_cls, wordNNN_beq_ret, wordXNN_beq_cls, wordXNN_beq_ret,
    wordXYN_beq_cls, wordXYN_beq_ret, encode, Instr.mnemonic]

theorem call (nnn : Addr12) : Statement (.call nnn) := by
  intro _
  simp [tableMnemonic, opcodeTable, List.find?, match_op, match_op_n, match_op_nn,
    and_mask_all, wordNNN_beq_cls, wordNNN_beq_ret, wordXNN_beq_cls, wordXNN_beq_ret,
    wordXYN_beq_cls, wordXYN_beq_ret, encode, Instr.mnemonic]

theorem seImm (x : Reg) (nn : Byte) : Statement (.seImm x nn) := by
  intro _
  simp [tableMnemonic, opcodeTable, List.find?, match_op, match_op_n, match_op_nn,
    and_mask_all, wordNNN_beq_cls, wordNNN_beq_ret, wordXNN_beq_cls, wordXNN_beq_ret,
    wordXYN_beq_cls, wordXYN_beq_ret, encode, Instr.mnemonic]

theorem sneImm (x : Reg) (nn : Byte) : Statement (.sneImm x nn) := by
  intro _
  simp [tableMnemonic, opcodeTable, List.find?, match_op, match_op_n, match_op_nn,
    and_mask_all, wordNNN_beq_cls, wordNNN_beq_ret, wordXNN_beq_cls, wordXNN_beq_ret,
    wordXYN_beq_cls, wordXYN_beq_ret, encode, Instr.mnemonic]

theorem seReg (x y : Reg) (ignored : Nibble) : Statement (.seReg x y ignored) := by
  intro _
  simp [tableMnemonic, opcodeTable, List.find?, match_op, match_op_n, match_op_nn,
    and_mask_all, wordNNN_beq_cls, wordNNN_beq_ret, wordXNN_beq_cls, wordXNN_beq_ret,
    wordXYN_beq_cls, wordXYN_beq_ret, encode, Instr.mnemonic]

theorem ldImm (x : Reg) (nn : Byte) : Statement (.ldImm x nn) := by
  intro _
  simp [tableMnemonic, opcodeTable, List.find?, match_op, match_op_n, match_op_nn,
    and_mask_all, wordNNN_beq_cls, wordNNN_beq_ret, wordXNN_beq_cls, wordXNN_beq_ret,
    wordXYN_beq_cls, wordXYN_beq_ret, encode, Instr.mnemonic]

theorem addImm (x : Reg) (nn : Byte) : Statement (.addImm x nn) := by
  intro _
  simp [tableMnemonic, opcodeTable, List.find?, match_op, match_op_n, match_op_nn,
    and_mask_all, wordNNN_beq_cls, wordNNN_beq_ret, wordXNN_beq_cls, wordXNN_beq_ret,
    wordXYN_beq_cls, wordXYN_beq_ret, encode, Instr.mnemonic]

theorem ldReg (x y : Reg) : Statement (.ldReg x y) := by
  intro _
  simp [tableMnemonic, opcodeTable, List.find?, match_op, match_op_n, match_op_nn,
    and_mask_all, wordNNN_beq_cls, wordNNN_beq_ret, wordXNN_beq_cls, wordXNN_beq_ret,
    wordXYN_beq_cls, wordXYN_beq_ret, encode, Instr.mnemonic]

theorem or (x y : Reg) : Statement (.or x y) := by
  intro _
  simp [tableMnemonic, opcodeTable, List.find?, match_op, match_op_n, match_op_nn,
    and_mask_all, wordNNN_beq_cls, wordNNN_beq_ret, wordXNN_beq_cls, wordXNN_beq_ret,
    wordXYN_beq_cls, wordXYN_beq_ret, encode, Instr.mnemonic]

theorem and (x y : Reg) : Statement (.and x y) := by
  intro _
  simp [tableMnemonic, opcodeTable, List.find?, match_op, match_op_n, match_op_nn,
    and_mask_all, wordNNN_beq_cls, wordNNN_beq_ret, wordXNN_beq_cls, wordXNN_beq_ret,
    wordXYN_beq_cls, wordXYN_beq_ret, encode, Instr.mnemonic]

theorem xor (x y : Reg) : Statement (.xor x y) := by
  intro _
  simp [tableMnemonic, opcodeTable, List.find?, match_op, match_op_n, match_op_nn,
    and_mask_all, wordNNN_beq_cls, wordNNN_beq_ret, wordXNN_beq_cls, wordXNN_beq_ret,
    wordXYN_beq_cls, wordXYN_beq_ret, encode, Instr.mnemonic]

theorem addReg (x y : Reg) : Statement (.addReg x y) := by
  intro _
  simp [tableMnemonic, opcodeTable, List.find?, match_op, match_op_n, match_op_nn,
    and_mask_all, wordNNN_beq_cls, wordNNN_beq_ret, wordXNN_beq_cls, wordXNN_beq_ret,
    wordXYN_beq_cls, wordXYN_beq_ret, encode, Instr.mnemonic]

theorem sub (x y : Reg) : Statement (.sub x y) := by
  intro _
  simp [tableMnemonic, opcodeTable, List.find?, match_op, match_op_n, match_op_nn,
    and_mask_all, wordNNN_beq_cls, wordNNN_beq_ret, wordXNN_beq_cls, wordXNN_beq_ret,
    wordXYN_beq_cls, wordXYN_beq_ret, encode, Instr.mnemonic]

theorem shr (x y : Reg) : Statement (.shr x y) := by
  intro _
  simp [tableMnemonic, opcodeTable, List.find?, match_op, match_op_n, match_op_nn,
    and_mask_all, wordNNN_beq_cls, wordNNN_beq_ret, wordXNN_beq_cls, wordXNN_beq_ret,
    wordXYN_beq_cls, wordXYN_beq_ret, encode, Instr.mnemonic]

theorem subn (x y : Reg) : Statement (.subn x y) := by
  intro _
  simp [tableMnemonic, opcodeTable, List.find?, match_op, match_op_n, match_op_nn,
    and_mask_all, wordNNN_beq_cls, wordNNN_beq_ret, wordXNN_beq_cls, wordXNN_beq_ret,
    wordXYN_beq_cls, wordXYN_beq_ret, encode, Instr.mnemonic]

theorem shl (x y : Reg) : Statement (.shl x y) := by
  intro _
  simp [tableMnemonic, opcodeTable, List.find?, match_op, match_op_n, match_op_nn,
    and_mask_all, wordNNN_beq_cls, wordNNN_beq_ret, wordXNN_beq_cls, wordXNN_beq_ret,
    wordXYN_beq_cls, wordXYN_beq_ret, encode, Instr.mnemonic]

theorem sneReg (x y : Reg) (ignored : Nibble) : Statement (.sneReg x y ignored) := by
  intro _
  simp [tableMnemonic, opcodeTable, List.find?, match_op, match_op_n, match_op_nn,
    and_mask_all, wordNNN_beq_cls, wordNNN_beq_ret, wordXNN_beq_cls, wordXNN_beq_ret,
    wordXYN_beq_cls, wordXYN_beq_ret, encode, Instr.mnemonic]

theorem ldI (nnn : Addr12) : Statement (.ldI nnn) := by
  intro _
  simp [tableMnemonic, opcodeTable, List.find?, match_op, match_op_n, match_op_nn,
    and_mask_all, wordNNN_beq_cls, wordNNN_beq_ret, wordXNN_beq_cls, wordXNN_beq_ret,
    wordXYN_beq_cls, wordXYN_beq_ret, encode, Instr.mnemonic]

theorem jpOff (x : Reg) (nn : Byte) : Statement (.jpOff x nn) := by
  intro _
  simp [tableMnemonic, opcodeTable, List.find?, match_op, match_op_n, match_op_nn,
    and_mask_all, wordNNN_beq_cls, wordNNN_beq_ret, wordXNN_beq_cls, wordXNN_beq_ret,
    wordXYN_beq_cls, wordXYN_beq_ret, encode, Instr.mnemonic]

theorem rnd (x : Reg) (nn : Byte) : Statement (.rnd x nn) := by
  intro _
  simp [tableMnemonic, opcodeTable, List.find?, match_op, match_op_n, match_op_nn,
    and_mask_all, wordNNN_beq_cls, wordNNN_beq_ret, wordXNN_beq_cls, wordXNN_beq_ret,
    wordXYN_beq_cls, wordXYN_beq_ret, encode, Instr.mnemonic]

theorem drw (x y : Reg) (n : Nibble) : Statement (.drw x y n) := by
  intro _
  simp [tableMnemonic, opcodeTable, List.find?, match_op, match_op_n, match_op_nn,
    and_mask_all, wordNNN_beq_cls, wordNNN_beq_ret, wordXNN_beq_cls, wordXNN_beq_ret,
    wordXYN_beq_cls, wordXYN_beq_ret, encode, Instr.mnemonic]

theorem skp (x : Reg) : Statement (.skp x) := by
  intro _
  simp [tableMnemonic, opcodeTable, List.find?, match_op, match_op_n, match_op_nn,
    and_mask_all, wordNNN_beq_cls, wordNNN_beq_ret, wordXNN_beq_cls, wordXNN_beq_ret,
    wordXYN_beq_cls, wordXYN_beq_ret, encode, Instr.mnemonic]

theorem sknp (x : Reg) : Statement (.sknp x) := by
  intro _
  simp [tableMnemonic, opcodeTable, List.find?, match_op, match_op_n, match_op_nn,
    and_mask_all, wordNNN_beq_cls, wordNNN_beq_ret, wordXNN_beq_cls, wordXNN_beq_ret,
    wordXYN_beq_cls, wordXYN_beq_ret, encode, Instr.mnemonic]

theorem ldVxDT (x : Reg) : Statement (.ldVxDT x) := by
  intro _
  simp [tableMnemonic, opcodeTable, List.find?, match_op, match_op_n, match_op_nn,
    and_mask_all, wordNNN_beq_cls, wordNNN_beq_ret, wordXNN_beq_cls, wordXNN_beq_ret,
    wordXYN_beq_cls, wordXYN_beq_ret, encode, Instr.mnemonic]

theorem ldVxK (x : Reg) : Statement (.ldVxK x) := by
  intro _
  simp [tableMnemonic, opcodeTable, List.find?, match_op, match_op_n, match_op_nn,
    and_mask_all, wordNNN_beq_cls, wordNNN_beq_ret, wordXNN_beq_cls, wordXNN_beq_ret,
    wordXYN_beq_cls, wordXYN_beq_ret, encode, Instr.mnemonic]

theorem ldDTVx (x : Reg) : Statement (.ldDTVx x) := by
  intro _
  simp [tableMnemonic, opcodeTable, List.find?, match_op, match_op_n, match_op_nn,
    and_mask_all, wordNNN_beq_cls, wordNNN_beq_ret, wordXNN_beq_cls, wordXNN_beq_ret,
    wordXYN_beq_cls, wordXYN_beq_ret, encode, Instr.mnemonic]

theorem ldSTVx (x : Reg) : Statement (.ldSTVx x) := by
  intro _
  simp [tableMnemonic, opcodeTable, List.find?, match_op, match_op_n, match_op_nn,
    and_mask_all, wordNNN_beq_cls, wordNNN_beq_ret, wordXNN_beq_cls, wordXNN_beq_ret,
    wordXYN_beq_cls, wordXYN_beq_ret, encode, Instr.mnemonic]

theorem addI (x : Reg) : Statement (.addI x) := by
  intro _
  simp [tableMnemonic, opcodeTable, List.find?, match_op, match_op_n, match_op_nn,
    and_mask_all, wordNNN_beq_cls, wordNNN_beq_ret, wordXNN_beq_cls, wordXNN_beq_ret,
    wordXYN_beq_cls, wordXYN_beq_ret, encode, Instr.mnemonic]

theorem ldF (x : Reg) : Statement (.ldF x) := by
  intro _
  simp [tableMnemonic, opcodeTable, List.find?, match_op, match_op_n, match_op_nn,
    and_mask_all, wordNNN_beq_cls, wordNNN_beq_ret, wordXNN_beq_cls, wordXNN_beq_ret,
    wordXYN_beq_cls, wordXYN_beq_ret, encode, Instr.mnemonic]

theorem ldB (x : Reg) : Statement (.ldB x) := by
  intro _
  simp [tableMnemonic, opcodeTable, List.find?, match_op, match_op_n, match_op_nn,
    and_mask_all, wordNNN_beq_cls, wordNNN_beq_ret, wordXNN_beq_cls, wordXNN_beq_ret,
    wordXYN_beq_cls, wordXYN_beq_ret, encode, Instr.mnemonic]

theorem storeRegs (x : Reg) : Statement (.storeRegs x) := by
  intro _
  simp [tableMnemonic, opcodeTable, List.find?, match_op, match_op_n, match_op_nn,
    and_mask_all, wordNNN_beq_cls, wordNNN_beq_ret, wordXNN_beq_cls, wordXNN_beq_ret,
    wordXYN_beq_cls, wordXYN_beq_ret, encode, Instr.mnemonic]

theorem loadRegs (x : Reg) : Statement (.loadRegs x) := by
  intro _
  simp [tableMnemonic, opcodeTable, List.find?, match_op, match_op_n, match_op_nn,
    and_mask_all, wordNNN_beq_cls, wordNNN_beq_ret, wordXNN_beq_cls, wordXNN_beq_ret,
    wordXYN_beq_cls, wordXYN_beq_ret, encode, Instr.mnemonic]

theorem unknown (w : Word16) : Statement (.unknown w) := by
  intro h
  simp only [Instr.wf, unknownWord, ← opField_toNat, ← nField_toNat, ← nnField_toNat] at h
  generalize ho : opField w = op at h
  generalize hn : nField w = n at h
  generalize hk : nnField w = nn at h
  by_cases h0 : op = 0#4
  · subst h0
    simp at h
    simp [tableMnemonic, opcodeTable, List.find?, match_op, match_op_n, match_op_nn, and_mask_all,
      encode, Instr.mnemonic, ho, beq_false_of_ne h.1,
      beq_false_of_ne h.2]
  · have hc : (w == 0x00E0#16) = false := beq_false_of_opField (ho ▸ h0)
    have hr : (w == 0x00EE#16) = false := beq_false_of_opField (ho ▸ h0)
    have hop : op = 0x8#4 ∨ op = 0xE#4 ∨ op = 0xF#4 := by
      have hz : op.toNat ≠ 0 := fun e => h0 (BitVec.eq_of_toNat_eq e)
      simp only [Bool.or_eq_true, Bool.and_eq_true, beq_iff_eq] at h
      rcases h with ((⟨⟨e, _⟩, _⟩ | ⟨e, _⟩) | ⟨e, _⟩) | ⟨e, _⟩
      · exact absurd e hz
      · exact .inl (BitVec.eq_of_toNat_eq e)
      · exact .inr (.inl (BitVec.eq_of_toNat_eq e))
      · exact .inr (.inr (BitVec.eq_of_toNat_eq e))
    simp [tableMnemonic, opcodeTable, List.find?, match_op, match_op_n, match_op_nn,
      and_mask_all, encode, Instr.mnemonic, ho, hn, hk, hc, hr]
    clear hc hr ho hn hk
    rcases hop with rfl | rfl | rfl <;> simp at h ⊢
    · revert h
      revert n
      decide
    · revert h
      revert nn
      decide
    · revert h
      revert nn
      decide

end Sys2Proof.Laws.TableRow
end

