-- ==== Sys2Proof/Laws/Session.lean ====
section
/-! SUPPORT. Everything a move of the host can do, said once. -/

namespace Sys2Proof.Machine

/-- A load happens at stage `atReset` only, and either copies the image or leaves the core alone. -/
theorem Session.load_cases {h k : Session} {source : Option (List Byte)}
    (hk : h.load source = some k) :
    h.stage = .atReset ∧
      ((∃ rom t, source = some rom ∧ h.core.load rom = .ok t ∧ k = ⟨t, .loaded⟩) ∨
        k = ⟨h.core, .loadRefused⟩) := by
  unfold Session.load at hk
  split at hk
  case h_1 hs =>
    refine ⟨hs, ?_⟩
    cases source with
    | none => cases hk; exact .inr rfl
    | some rom =>
      rw [State.loadFrom] at hk
      cases hl : h.core.load rom with
      | ok t => rw [hl] at hk; cases hk; exact .inl ⟨rom, t, rfl, hl, rfl⟩
      | error e => rw [hl] at hk; cases hk; exact .inr rfl
  all_goals cases hk

/-- A step happens at stage `loaded` only. -/
theorem Session.step_cases {h k : Session} (hk : h.step = some k) :
    h.stage = .loaded ∧ ∃ t, Machine.step h.core = .next t ∧ k = ⟨t, .loaded⟩ := by
  unfold Session.step at hk
  split at hk
  case h_1 hs =>
    refine ⟨hs, ?_⟩
    split at hk
    · rename_i t ht; cases hk; exact ⟨t, ht, rfl⟩
    all_goals cases hk
  all_goals cases hk

/-- What a move of the host is. -/
theorem Session.move_cases {h k : Session} {m : HostMove} (hk : h.move m = some k) :
    (m = .reset ∧ k = ⟨h.core.hostReset, .atReset⟩) ∨
    (∃ keys, m = .setKeys keys ∧ k = ⟨h.core.setKeys keys, h.stage⟩) ∨
    (∃ source, m = .load source ∧ h.stage = .atReset ∧
      ((∃ rom t, source = some rom ∧ h.core.load rom = .ok t ∧ k = ⟨t, .loaded⟩) ∨
        k = ⟨h.core, .loadRefused⟩)) ∨
    (m = .step ∧ h.stage = .loaded ∧ ∃ t, Machine.step h.core = .next t ∧ k = ⟨t, .loaded⟩) := by
  cases m with
  | reset => cases hk; exact .inl ⟨rfl, rfl⟩
  | setKeys keys => cases hk; exact .inr (.inl ⟨keys, rfl, rfl⟩)
  | load source => exact .inr (.inr (.inl ⟨source, rfl, Session.load_cases hk⟩))
  | step => exact .inr (.inr (.inr ⟨rfl, Session.step_cases hk⟩))

end Sys2Proof.Machine
end

