-- ==== Sys2Proof/Tests/Slice0.lean ====
section
/-! SUPPORT. Small tests, each with its expected result from the spec (the vector V<n> or example
S<n> of spec/95_test_vectors.md named beside it), and a witness for the hypotheses of every
statement. -/

namespace Sys2Proof.Tests

open Sys2Proof Sys2Proof.Machine

/-- Does a step or a meaning answer a next state, and does that state pass the test? -/
def gives (r : Result) (test : State → Bool) : Bool :=
  match r with
  | .next t => test t
  | .fault _ => false
  | .refused _ => false

/-- The reset state with a word where the next step fetches it. -/
def start (w : Nat) : State := State.reset.withFetchWord 16 w

/-- The same, to be fetched at an address. -/
def startAt (pc : Word16) (w : Nat) : State := { State.reset with pc := pc }.withFetchWord 16 w

/-- Some registers set. -/
def withRegs (s : State) (vs : List (Reg × Byte)) : State :=
  vs.foldl (fun s v => s.setReg v.1 v.2) s

/-- Some bytes stored, and `I` set. -/
def withBytes (s : State) (i : Word16) (a : Nat) (bs : List Byte) : State :=
  { s with I := i, mem := s.mem.writeList a bs }

/-- One key down. -/
def withKey (s : State) (k : Fin 16) : State := { s with key := s.key.set k.val true }

/-- The record of a halted core. -/
def haltedWith (t : State) (c : Fault) (pc opcode : Word16) : Bool :=
  t.halted && decide (t.fault = some ⟨c, pc, opcode⟩)

/-! ## Well-formedness: the ill-formed terms are those UNKNOWN instructions that carry a word of
another row, family by family (R60) -/

theorem test_wf_refuses_defined_words :
    (Instr.unknown 0x00E0).wf = false ∧ (Instr.unknown 0x1234).wf = false ∧
    (Instr.unknown 0x8120).wf = false ∧ (Instr.unknown 0x812E).wf = false ∧
    (Instr.unknown 0xE19E).wf = false ∧ (Instr.unknown 0xF165).wf = false := by decide

theorem test_wf_admits_unknown_words :
    (Instr.unknown 0x0000).wf = true ∧ (Instr.unknown 0x8128).wf = true ∧
    (Instr.unknown 0xE10E).wf = true ∧ (Instr.unknown 0xFFFF).wf = true := by decide

/-! ## Decoding: one word of every row of R64, written out from its pattern -/

theorem test_decode_families_0_to_3 :
    decodeWord 0x00E0 = .cls ∧ decodeWord 0x00EE = .ret ∧ decodeWord 0x1ABC = .jp 0xABC ∧
    decodeWord 0x2DEF = .call 0xDEF ∧ decodeWord 0x3A5C = .seImm 0xA 0x5C := by decide

theorem test_decode_families_4_to_7 :
    decodeWord 0x4B7E = .sneImm 0xB 0x7E ∧ decodeWord 0x5127 = .seReg 1 2 7 ∧
    decodeWord 0x6A2B = .ldImm 0xA 0x2B ∧ decodeWord 0x7102 = .addImm 1 0x02 := by decide

theorem test_decode_family_8 :
    decodeWord 0x8120 = .ldReg 1 2 ∧ decodeWord 0x8341 = .or 3 4 ∧
    decodeWord 0x8562 = .and 5 6 ∧ decodeWord 0x8783 = .xor 7 8 ∧
    decodeWord 0x89A4 = .addReg 9 0xA ∧ decodeWord 0x8BC5 = .sub 0xB 0xC ∧
    decodeWord 0x8DE6 = .shr 0xD 0xE ∧ decodeWord 0x8F07 = .subn 0xF 0 ∧
    decodeWord 0x812E = .shl 1 2 := by decide

theorem test_decode_families_9_to_D :
    decodeWord 0x912F = .sneReg 1 2 0xF ∧ decodeWord 0xA300 = .ldI 0x300 ∧
    decodeWord 0xB234 = .jpOff 2 0x34 ∧ decodeWord 0xC30F = .rnd 3 0x0F ∧
    decodeWord 0xD125 = .drw 1 2 5 := by decide

theorem test_decode_families_E_and_F :
    decodeWord 0xE79E = .skp 7 ∧ decodeWord 0xE8A1 = .sknp 8 ∧ decodeWord 0xF407 = .ldVxDT 4 ∧
    decodeWord 0xF30A = .ldVxK 3 ∧ decodeWord 0xF315 = .ldDTVx 3 ∧
    decodeWord 0xF618 = .ldSTVx 6 ∧ decodeWord 0xF21E = .addI 2 ∧ decodeWord 0xF029 = .ldF 0 ∧
    decodeWord 0xF933 = .ldB 9 ∧ decodeWord 0xFA55 = .storeRegs 0xA ∧
    decodeWord 0xFB65 = .loadRegs 0xB := by decide

/-- V102 to V109. -/
theorem test_decode_unknown :
    decodeWord 0x8128 = .unknown 0x8128 ∧ decodeWord 0x0000 = .unknown 0x0000 ∧
    decodeWord 0x0AEE = .unknown 0x0AEE ∧ decodeWord 0xE10E = .unknown 0xE10E ∧
    decodeWord 0xF175 = .unknown 0xF175 ∧ decodeWord 0xFFFF = .unknown 0xFFFF := by decide

/-- R32: the byte at the lower address is the high one; R50: two bytes. -/
theorem test_decode_bytes :
    decode [0x6A, 0x2B, 0x77] = .ok (.ldImm 0xA 0x2B, [0x77]) ∧
    decode [0x6A] = .error .truncated ∧ decodeTableWord 16 0x6A2B = some (.ldImm 0xA 0x2B) := by
  decide

/-! ## One step of every instruction -/

/-- V85. -/
theorem test_cls :
    gives (step (withRegs
        { start 0x00E0 with disp := (Frame.blank.toggle 3 4).toggle 31 63 } [(0xF, 0x01)]))
      (fun t => decide (t.disp = Frame.blank) && t.reg Reg.flag == 0x01 && t.pc == 0x0202) = true := by
  decide

/-- V15: the popped entry keeps its value. -/
theorem test_ret :
    gives (step { startAt 0x0212 0x00EE with sp := 1, stack := State.reset.stack.set 0 0x0206 })
      (fun t => decide (t.sp = 0) && t.pc == 0x0206 && t.stack[0] == 0x0206) = true := by decide

/-- V16: no tick in the faulting cycle. -/
theorem test_ret_underflow :
    gives (step { startAt 0x0212 0x00EE with DT := 5 })
      (fun t => haltedWith t .stackUnderflow 0x0214 0x00EE && t.pc == 0x0214 && t.DT == 5) = true := by
  decide

/-- V13. -/
theorem test_jp : gives (step (startAt 0x020A 0x1204)) (fun t => t.pc == 0x0204) = true := by decide

/-- V14. -/
theorem test_call :
    gives (step (startAt 0x0204 0x2210))
      (fun t => t.stack[0] == 0x0206 && decide (t.sp = 1) && t.pc == 0x0210) = true := by decide

/-- V17. -/
theorem test_call_overflow :
    gives (step { startAt 0x0204 0x2300 with sp := 16 })
      (fun t => haltedWith t .stackOverflow 0x0206 0x2300 && decide (t.sp = 16) &&
        t.pc == 0x0206 && decide (t.stack = State.reset.stack)) = true := by decide

/-- V20, V21. -/
theorem test_se_imm :
    gives (step (withRegs (start 0x3005) [(0, 0x05)])) (fun t => t.pc == 0x0204) = true ∧
    gives (step (withRegs (start 0x3006) [(0, 0x05)])) (fun t => t.pc == 0x0202) = true := by decide

/-- V22, V23. -/
theorem test_sne_imm :
    gives (step (withRegs (start 0x4006) [(0, 0x05)])) (fun t => t.pc == 0x0204) = true ∧
    gives (step (withRegs (start 0x4005) [(0, 0x05)])) (fun t => t.pc == 0x0202) = true := by decide

/-- V25, and V24's other case. -/
theorem test_se_reg :
    gives (step (withRegs (start 0x5127) [(1, 7), (2, 7)])) (fun t => t.pc == 0x0204) = true ∧
    gives (step (withRegs (start 0x5120) [(1, 7), (2, 8)])) (fun t => t.pc == 0x0202) = true := by
  decide

/-- V27, and V26's other case. -/
theorem test_sne_reg :
    gives (step (withRegs (start 0x912F) [(1, 7), (2, 8)])) (fun t => t.pc == 0x0204) = true ∧
    gives (step (withRegs (start 0x9120) [(1, 7), (2, 7)])) (fun t => t.pc == 0x0202) = true := by
  decide

/-- V11. -/
theorem test_ld_imm : gives (step (start 0x6A2B)) (fun t => t.reg 0xA == 0x2B) = true := by decide

/-- V9, V10. -/
theorem test_add_imm :
    gives (step (withRegs (start 0x7102) [(1, 0xFF), (0xF, 0x55)]))
      (fun t => t.reg 1 == 0x01 && t.reg Reg.flag == 0x55) = true ∧
    gives (step (withRegs (start 0x7F01) [(0xF, 0xFF)])) (fun t => t.reg Reg.flag == 0) = true := by
  decide

/-- V12. -/
theorem test_ld_reg :
    gives (step (withRegs (start 0x8120) [(1, 0x11), (2, 0x7E)]))
      (fun t => t.reg 1 == 0x7E && t.reg 2 == 0x7E) = true := by decide

/-- V52. -/
theorem test_or :
    gives (step (withRegs (start 0x8121) [(1, 0x0F), (2, 0xF0), (0xF, 0x07)]))
      (fun t => t.reg 1 == 0xFF && t.reg Reg.flag == 0x07) = true := by decide

/-- V53. -/
theorem test_and :
    gives (step (withRegs (start 0x8122) [(1, 0x3C), (2, 0x0F)])) (fun t => t.reg 1 == 0x0C) = true := by
  decide

/-- V54. -/
theorem test_xor :
    gives (step (withRegs (start 0x8123) [(1, 0xFF), (2, 0x0F)])) (fun t => t.reg 1 == 0xF0) = true := by
  decide

/-- V1, V7. -/
theorem test_add_reg :
    gives (step (withRegs (start 0x8124) [(1, 0xFF), (2, 0x01)]))
      (fun t => t.reg 1 == 0x00 && t.reg Reg.flag == 0x01) = true ∧
    gives (step (withRegs (start 0x8FF4) [(0xF, 0x7F)])) (fun t => t.reg Reg.flag == 0) = true := by
  decide

/-- S2, V36 (equal operands). -/
theorem test_sub :
    gives (step (withRegs (start 0x8125) [(1, 0x05), (2, 0x09)]))
      (fun t => t.reg 1 == 0xFC && t.reg Reg.flag == 0x00) = true ∧
    gives (step (withRegs (start 0x8125) [(1, 0x07), (2, 0x07), (0xF, 0x01)]))
      (fun t => t.reg 1 == 0x00 && t.reg Reg.flag == 0x00) = true := by decide

/-- V43 (the old `V1` plays no part), V46. -/
theorem test_shr :
    gives (step (withRegs (start 0x8126) [(1, 0xAA), (2, 0x05)]))
      (fun t => t.reg 1 == 0x02 && t.reg Reg.flag == 0x01 && t.reg 2 == 0x05) = true ∧
    gives (step (withRegs (start 0x8F16) [(1, 0x02)])) (fun t => t.reg Reg.flag == 0x00) = true := by
  decide

/-- V40, V41. -/
theorem test_subn :
    gives (step (withRegs (start 0x8127) [(1, 0x05), (2, 0x09)]))
      (fun t => t.reg 1 == 0x04 && t.reg Reg.flag == 0x01 && t.reg 2 == 0x09) = true ∧
    gives (step (withRegs (start 0x8127) [(1, 0x09), (2, 0x05)]))
      (fun t => t.reg 1 == 0xFC && t.reg Reg.flag == 0x00) = true := by decide

/-- V48, V49. -/
theorem test_shl :
    gives (step (withRegs (start 0x812E) [(2, 0x81)]))
      (fun t => t.reg 1 == 0x02 && t.reg Reg.flag == 0x01) = true ∧
    gives (step (withRegs (start 0x812E) [(2, 0x40), (0xF, 0x01)]))
      (fun t => t.reg 1 == 0x80 && t.reg Reg.flag == 0x00) = true := by decide

/-- V57. -/
theorem test_ld_i : gives (step (start 0xAFFF)) (fun t => t.I == 0x0FFF) = true := by decide

/-- V32. -/
theorem test_jp_off :
    gives (step (withRegs (start 0xBFFF) [(0xF, 0xFF)])) (fun t => t.pc == 0x01FE) = true := by decide

/-- V56: a mask of zero gives zero whatever the free byte. -/
theorem test_rnd (s : State) :
    gives (exec (.rnd 3 0x00) s) (fun t => t.reg 3 == 0x00 && t.draws == s.draws + 1) = true := by
  simp [gives, exec, execRnd, State.nextDraw]

/-- V78 (bit 7 leftmost) and V76 (clipped at the corner). -/
theorem test_drw :
    gives (step (withBytes (start 0xD121) 0x0300 0x300 [0x81]))
      (fun t => decide (t.disp = (Frame.blank.toggle 0 0).toggle 0 7) && t.reg Reg.flag == 0) = true ∧
    gives (step (withRegs (withBytes (start 0xD122) 0x0300 0x300 [0xF0, 0x90]) [(1, 0x3E), (2, 0x1F)]))
      (fun t => decide (t.disp = (Frame.blank.toggle 31 62).toggle 31 63)) = true := by decide

/-- V84's second draw (a partial collision) and V81 (clipped rows are still read). -/
theorem test_drw_collision_and_bound :
    gives (step (withBytes { start 0xD011 with disp := (Frame.blank.toggle 0 0).toggle 0 1 }
        0x0301 0x301 [0x60]))
      (fun t => decide (t.disp = (Frame.blank.toggle 0 0).toggle 0 2) && t.reg Reg.flag == 1) = true ∧
    gives (step (withRegs { start 0xD122 with I := 0x0FFF } [(2, 0x1F)]))
      (fun t => haltedWith t .dataAccessOutOfBounds 0x0202 0xD122) = true := by decide

/-- V88, V89. -/
theorem test_skp :
    gives (step (withKey (withRegs (start 0xE09E) [(0, 0x0F)]) 15)) (fun t => t.pc == 0x0204) = true ∧
    gives (step (withKey (withRegs (start 0xE09E) [(0, 0x15)]) 5))
      (fun t => haltedWith t .keyIndexOutOfRange 0x0202 0xE09E) = true := by decide

/-- V87, V90. -/
theorem test_sknp :
    gives (step (withKey (withRegs (startAt 0x0202 0xE0A1) [(0, 0x07)]) 7))
      (fun t => t.pc == 0x0204) = true ∧
    gives (step (withRegs (start 0xE0A1) [(0, 0x10)]))
      (fun t => haltedWith t .keyIndexOutOfRange 0x0202 0xE0A1) = true := by decide

/-- V98. -/
theorem test_ld_vx_dt :
    gives (step { start 0xF407 with DT := 0x02 })
      (fun t => t.reg 4 == 0x02 && t.DT == 0x01) = true := by decide

/-- V93 (the lowest key), V92 (the wait ticks). -/
theorem test_ld_vx_k :
    gives (step (withKey (withKey (withRegs (start 0xF30A) [(3, 0xEE)]) 3) 9))
      (fun t => t.reg 3 == 0x03 && t.pc == 0x0202) = true ∧
    gives (step (withRegs { start 0xF30A with DT := 5, ST := 1 } [(3, 0xEE)]))
      (fun t => t.pc == 0x0200 && t.reg 3 == 0xEE && t.DT == 4 && t.ST == 0) = true := by decide

/-- V95, V96. -/
theorem test_ld_dt_vx :
    gives (step (withRegs (start 0xF315) [(3, 0x03)])) (fun t => t.DT == 0x02) = true ∧
    gives (step { start 0xF315 with DT := 9 }) (fun t => t.DT == 0x00) = true := by decide

/-- V97, with the tone. -/
theorem test_ld_st_vx :
    gives (step (withRegs (start 0xF318) [(3, 0x03)])) (fun t => t.ST == 0x02 && t.tone) = true ∧
    gives (step (withRegs (start 0xF318) [(3, 0x01)])) (fun t => t.ST == 0 && !t.tone) = true := by
  decide

/-- V59, V62. -/
theorem test_add_i :
    gives (step (withRegs { start 0xF21E with I := 0xFFFF } [(2, 0x01)]))
      (fun t => t.I == 0x0000 && t.reg Reg.flag == 0x01) = true ∧
    gives (step (withRegs { start 0xFF1E with I := 0xFFFE } [(0xF, 0x02)]))
      (fun t => t.I == 0x0000 && t.reg Reg.flag == 0x01) = true := by decide

/-- S7, V64. -/
theorem test_ld_f :
    gives (step (withRegs (start 0xF029) [(0, 0x0A)])) (fun t => t.I == 0x0082) = true ∧
    gives (step (withRegs (start 0xF029) [(0, 0x1A)])) (fun t => t.I == 0x0082) = true := by decide

/-- S3, V67. -/
theorem test_ld_b :
    gives (step (withRegs { start 0xF033 with I := 0x0300 } [(0, 0x9D)]))
      (fun t => t.mem.read 0x300 == 1 && t.mem.read 0x301 == 5 && t.mem.read 0x302 == 7) = true ∧
    gives (step (withRegs { start 0xF033 with I := 0x0FFE } [(0, 0xFF)]))
      (fun t => haltedWith t .dataAccessOutOfBounds 0x0202 0xF033 && t.mem.read 0xFFE == 0) = true := by
  decide

/-- V68, V71 (all or nothing). -/
theorem test_store_regs :
    gives (step (withRegs { start 0xF255 with I := 0x0300 } [(0, 0xAA), (1, 0xBB), (2, 0xCC), (3, 0xDD)]))
      (fun t => t.mem.read 0x300 == 0xAA && t.mem.read 0x302 == 0xCC && t.mem.read 0x303 == 0 &&
        t.I == 0x0300) = true ∧
    gives (step (withRegs { start 0xFF55 with I := 0x0FF1 } [(0, 0x01)]))
      (fun t => haltedWith t .dataAccessOutOfBounds 0x0202 0xFF55 && t.mem.read 0xFF1 == 0) = true := by
  decide

/-- V72, V74. -/
theorem test_load_regs :
    gives (step (withRegs (withBytes (start 0xF265) 0x0300 0x300 [1, 5, 7, 0x42]) [(3, 0x99)]))
      (fun t => t.reg 0 == 1 && t.reg 1 == 5 && t.reg 2 == 7 && t.reg 3 == 0x99 &&
        t.I == 0x0300) = true ∧
    gives (step (withRegs { start 0xFF65 with I := 0x0FF1 } [(0, 0xEE)]))
      (fun t => haltedWith t .dataAccessOutOfBounds 0x0202 0xFF65 && t.reg 0 == 0xEE) = true := by
  decide

/-- V102: the report, the tick, and no other effect. -/
theorem test_unknown :
    gives (step { start 0x8128 with DT := 3 })
      (fun t => decide (t.report = some ⟨0x0202, 0x8128⟩) && t.pc == 0x0202 && t.DT == 2 &&
        !t.halted) = true := by decide

/-! ## Fetch, reset, load -/

/-- V113, V114: the last legal fetch, and the first illegal one. -/
theorem test_fetch_bound :
    gives (step (startAt 0x0FFE 0x6001)) (fun t => t.reg 0 == 0x01 && t.pc == 0x1000) = true ∧
    gives (step { State.reset with pc := 0x0FFF, DT := 3 })
      (fun t => haltedWith t .fetchOutOfBounds 0x0FFF 0x0000 && t.pc == 0x0FFF && t.DT == 3) = true := by
  decide

/-- V121. -/
theorem test_font :
    State.reset.mem.read 0x04F = 0x00 ∧ State.reset.mem.read 0x050 = 0xF0 ∧
    State.reset.mem.read 0x055 = 0x20 ∧ State.reset.mem.read 0x086 = 0x90 ∧
    State.reset.mem.read 0x09F = 0x80 ∧ State.reset.mem.read 0x0A0 = 0x00 := by decide

/-- V118. -/
theorem test_load :
    (State.reset.load [0x12, 0x00]).toOption.map
      (fun t => (t.mem.read 0x200, t.mem.read 0x201, t.pc)) = some (0x12, 0x00, 0x0200) := by decide

/-- V120, S8: the greatest image, and one byte more. -/
theorem test_load_bound (b : Byte) :
    State.reset.load (List.replicate 3585 b) = .error .tooLarge ∧
    ∃ t, State.reset.load (List.replicate 3584 b) = .ok t := by
  constructor
  · rw [State.load, List.length_replicate, if_pos (by decide)]
  · exact ⟨_, by rw [State.load, List.length_replicate, if_neg (by decide)]⟩

/-! ## Witnesses: a state and operands that meet all the hypotheses of each statement, for each
clause, at the boundary of its range -/

theorem witness_AddRegistersSetsCarry : (0xE : Reg) ≠ Reg.flag := by decide

theorem witness_SubtractionsSetStrictFlag : (0x0 : Reg) ≠ Reg.flag := by decide

theorem witness_ShiftsReadVyAndKeepTheBitShiftedOut : (0x7 : Reg) ≠ Reg.flag := by decide

/-- `sp = 15`, the last that completes (V19), and `sp = 16`. -/
theorem witness_CallPushesOrOverflows :
    (({ State.reset with sp := 15 } : State).sp.val < 16 ∧
      gives (exec (.call 0xFFF) { State.reset with sp := 15 }) (fun t => !t.halted) = true) ∧
    (({ State.reset with sp := 16 } : State).sp.val = 16 ∧
      gives (exec (.call 0xFFF) { State.reset with sp := 16 }) (fun t => t.halted) = true) := by decide

/-- `sp = 1`, the last that completes, a full stack, and `sp = 0`. -/
theorem witness_ReturnPopsOrUnderflows :
    (0 < ({ State.reset with sp := 1 } : State).sp.val ∧
      gives (exec .ret { State.reset with sp := 1 }) (fun t => !t.halted) = true) ∧
    (0 < ({ State.reset with sp := 16 } : State).sp.val ∧
      gives (exec .ret { State.reset with sp := 16 }) (fun t => !t.halted) = true) ∧
    (State.reset.sp.val = 0 ∧ gives (exec .ret State.reset) (fun t => t.halted) = true) := by decide

theorem witness_CallThenReturnRoundTrips :
    ∃ s t u : State, s.sp.val < 16 ∧ exec (.call 0x210) s = .next t ∧ u.sp = t.sp ∧
      u.stack = t.stack ∧ u.I ≠ t.I :=
  ⟨{ State.reset with sp := 15 }, _, { State.reset with
    sp := 16, stack := State.reset.stack.set 15 0x0200, I := 7 },
    by decide, rfl, rfl, rfl, by decide⟩

theorem witness_DecimalDigitsAreStored :
    (({ State.reset with I := 0x0FFD } : State).mem.wf = true ∧
      ({ State.reset with I := 0x0FFD } : State).I.toNat + 2 ≤ 0xFFF) ∧
    ({ State.reset with I := 0x0FFE } : State).I.toNat + 2 > 0xFFF := by decide

theorem witness_RegistersAreStored :
    (({ State.reset with I := 0x0FF0 } : State).mem.wf = true ∧
      ({ State.reset with I := 0x0FF0 } : State).I.toNat + (15 : Reg).val ≤ 0xFFF) ∧
    ({ State.reset with I := 0x0FF1 } : State).I.toNat + (15 : Reg).val > 0xFFF := by decide

/-- `x = 15` and `x = 0`, each at the last address that completes and at the first that does not. -/
theorem witness_RegistersAreLoaded :
    (({ State.reset with I := 0x0FF0 } : State).I.toNat + (15 : Reg).val ≤ 0xFFF ∧
      ({ State.reset with I := 0x0FF1 } : State).I.toNat + (15 : Reg).val > 0xFFF) ∧
    (({ State.reset with I := 0x0FFF } : State).I.toNat + (0 : Reg).val ≤ 0xFFF ∧
      ({ State.reset with I := 0x1000 } : State).I.toNat + (0 : Reg).val > 0xFFF) := by decide

/-- A register written is a frame that keeps everything but the registers. -/
theorem frame_setReg (t : State) (r : Reg) (b : Byte) : FrameBut [.V] t (t.setReg r b) := by
  intro f hf
  cases f <;> simp_all [SameField]

theorem witness_StoreThenLoadRestoresRegisters :
    ∃ s t u : State, s.mem.wf = true ∧ s.I.toNat + (1 : Reg).val ≤ 0xFFF ∧
      exec (.storeRegs 1) s = .next t ∧ FrameBut [.V] t u ∧ u.reg 1 ≠ s.reg 1 :=
  ⟨{ State.reset with I := 0x0FFE }, _, _, by decide, by decide, rfl, frame_setReg _ 1 0x55,
    by decide⟩

theorem witness_MemoryPrimitives :
    State.reset.mem.wf = true ∧ 0xFFF ≤ 0xFFF ∧ 0x1000 > 0xFFF ∧
    (State.reset.memWrite 0xFFF 0x77).toOption.isSome = true ∧
    State.reset.memRead 0x1000 = .error .dataAccessOutOfBounds := by decide

/-- At the reset `pc`, and at the last one a fetch reads. -/
theorem witness_StoreIsSeenByTheNextFetch :
    (∃ s t : State, s.mem.wf = true ∧ 1 ≤ (1 : Reg).val ∧ s.I = s.pc ∧
      s.pc.toNat + (1 : Reg).val ≤ 0xFFF ∧ exec (.storeRegs 1) s = .next t) ∧
    (∃ s t : State, s.mem.wf = true ∧ s.I = s.pc ∧ s.pc = 0x0FFE ∧
      s.pc.toNat + (1 : Reg).val ≤ 0xFFF ∧ exec (.storeRegs 1) s = .next t) :=
  ⟨⟨{ State.reset with I := 0x0200 }, _, by decide, by decide, rfl, by decide, rfl⟩,
    ⟨{ State.reset with I := 0x0FFE, pc := 0x0FFE }, _, by decide, rfl, rfl, by decide, rfl⟩⟩

/-- V79, V123, V80. -/
theorem witness_DrawTogglesTheSpritesPixels :
    ({ State.reset with I := 0x0FF1 } : State).I.toNat + (15 : Nibble).toNat - 1 ≤ 0xFFF ∧
    (0 : Nibble).toNat = 0 ∧
    gives (exec (.drw 1 2 0) { State.reset with I := 0xFFFF }) (fun t => !t.halted) = true ∧
    (1 ≤ (15 : Nibble).toNat ∧
      ({ State.reset with I := 0x0FF2 } : State).I.toNat + (15 : Nibble).toNat - 1 > 0xFFF) := by decide

theorem witness_DrawTwiceRestoresTheFrame :
    ∃ s t u : State, (1 : Reg) ≠ Reg.flag ∧ (2 : Reg) ≠ Reg.flag ∧
      exec (.drw 1 2 1) s = .next t ∧ exec (.drw 1 2 1) t = .next u :=
  ⟨{ State.reset with I := 0x0050 }, _, _, by decide, by decide, rfl, rfl⟩

theorem witness_ClearThenDrawLeavesTheSprite :
    ∃ s t : State, exec .cls s = .next t ∧ s.I.toNat + (15 : Nibble).toNat - 1 ≤ 0xFFF :=
  ⟨{ State.reset with I := 0x0FF1 }, _, rfl, by decide⟩

/-- The greatest key number, and the first content that names no key. -/
theorem witness_KeySkipsReadTheNamedKey :
    ((withRegs State.reset [(0, 0x0F)]).reg 0).toNat = (15 : Fin 16).val ∧
    ((withRegs State.reset [(0, 0x10)]).reg 0).toNat > 0x0F := by decide

/-- Two keys down; only the greatest; none. -/
theorem witness_AwaitKeyTakesTheLeastKeyOrRewinds :
    ((withKey (withKey State.reset 3) 9).key[3] = true ∧
      ∀ j : Fin 16, j < 3 → (withKey (withKey State.reset 3) 9).key[j.val] = false) ∧
    ((withKey State.reset 15).key[15] = true ∧
      ∀ j : Fin 16, j < 15 → (withKey State.reset 15).key[j.val] = false) ∧
    (∀ k : Fin 16, State.reset.key[k.val] = false) := by decide

theorem witness_RegistersChangeOnlyAsDestinationOrFlag :
    ∃ t, exec (.ldImm 1 0x22) State.reset = .next t ∧ (0xF : Reg) ∉ destRegs (.ldImm 1 0x22) ∧
      setsFlag (.ldImm 1 0x22) = false := ⟨_, rfl, by decide, by decide⟩

theorem witness_FlagWritersLeaveZeroOrOne :
    ∃ t, setsFlag (.drw 1 2 15) = true ∧
      faultOf { State.reset with I := 0x0FF1 } (.drw 1 2 15) = none ∧
      exec (.drw 1 2 15) { State.reset with I := 0x0FF1 } = .next t :=
  ⟨_, by decide, by decide, rfl⟩

theorem witness_FieldsAreWrittenOnlyByTheirInstructions :
    ∃ t, exec (.ldB 0) { State.reset with I := 0x0300 } = .next t := ⟨_, rfl⟩

theorem witness_PcMovesAsTabulated :
    ∃ t, faultOf { State.reset with sp := 1 } .ret = none ∧
      exec .ret { State.reset with sp := 1 } = .next t := ⟨_, by decide, rfl⟩

/-- Every cause at the boundary of its condition, and the last value on the other side. -/
theorem witness_FatalConditionsAreExactlyTheTables :
    faultOf State.reset .ret = some .stackUnderflow ∧
    faultOf { State.reset with sp := 16 } (.call 0) = some .stackOverflow ∧
    faultOf { State.reset with I := 0x0FF2 } (.drw 0 0 15) = some .dataAccessOutOfBounds ∧
    faultOf { State.reset with I := 0x0FFE } (.ldB 0) = some .dataAccessOutOfBounds ∧
    faultOf { State.reset with I := 0x0FF1 } (.storeRegs 15) = some .dataAccessOutOfBounds ∧
    faultOf { State.reset with I := 0x1000 } (.loadRegs 0) = some .dataAccessOutOfBounds ∧
    faultOf (withRegs State.reset [(0, 0x10)]) (.skp 0) = some .keyIndexOutOfRange ∧
    faultOf (withRegs State.reset [(0, 0x10)]) (.sknp 0) = some .keyIndexOutOfRange ∧
    faultOf { State.reset with sp := 15 } (.call 0) = none ∧
    faultOf { State.reset with I := 0xFFFF } (.drw 0 0 0) = none := by decide

theorem witness_StepRunsTheDecodedInstruction :
    ∃ t, (startAt 0x0FFE 0x6001).halted = false ∧ (startAt 0x0FFE 0x6001).pc.toNat ≤ 0x0FFE ∧
      decode [(startAt 0x0FFE 0x6001).mem.read 0x0FFE, (startAt 0x0FFE 0x6001).mem.read 0x0FFF] =
        .ok (.ldImm 0 0x01, []) ∧
      exec (.ldImm 0 0x01) (startAt 0x0FFE 0x6001).fetched = .next t :=
  ⟨_, by decide, by decide, by decide, rfl⟩

theorem witness_FetchPastMemoryHalts :
    ({ State.reset with pc := 0x0FFF } : State).halted = false ∧
    ({ State.reset with pc := 0x0FFF } : State).pc.toNat > 0x0FFE := by decide

theorem witness_HaltedCoreNeverChanges : ({ State.reset with halted := true } : State).halted = true := by
  decide

/-- A fetch that faults, and an instruction that does. -/
theorem witness_FaultsArePrecise :
    (({ State.reset with pc := 0x0FFF } : State).halted = false ∧
      gives (step { State.reset with pc := 0x0FFF }) (fun t => t.halted) = true) ∧
    ((start 0x00EE).halted = false ∧ gives (step (start 0x00EE)) (fun t => t.halted) = true) := by decide

/-- A timer read, a timer set, another instruction. -/
theorem witness_TimersCountExecutedInstructions :
    ∀ w ∈ [0xF407, 0xF315, 0xF318, 0x6000],
      (start w).halted = false ∧ gives (step (start w)) (fun t => !t.halted) = true := by decide

theorem witness_SkipCyclesAdvanceFourOrTwo :
    (startAt 0x0FFE 0x3005).halted = false ∧ (startAt 0x0FFE 0x3005).pc.toNat ≤ 0x0FFE ∧
    (startAt 0x0FFE 0x3005).wordAtPc = encode (.seImm 0 0x05) ∧
    (startAt 0x0FFE 0x4005).wordAtPc = encode (.sneImm 0 0x05) ∧
    (startAt 0x0FFE 0x5127).wordAtPc = encode (.seReg 1 2 7) ∧
    (startAt 0x0FFE 0x912F).wordAtPc = encode (.sneReg 1 2 0xF) := by decide

theorem witness_SelfJumpOnlyTicks :
    (startAt 0x0FFE 0x1FFE).halted = false ∧ (startAt 0x0FFE 0x1FFE).pc.toNat ≤ 0x0FFE ∧
    (startAt 0x0FFE 0x1FFE).wordAtPc = encode (.jp 0xFFE) ∧
    (0xFFE : Addr12).toNat = (startAt 0x0FFE 0x1FFE).pc.toNat := by decide

theorem witness_AwaitKeyWaitsByReExecution :
    (start 0xF30A).halted = false ∧ (start 0xF30A).pc.toNat ≤ 0x0FFE ∧
    (start 0xF30A).wordAtPc = encode (.ldVxK 3) ∧
    ∀ k : Fin 16, (start 0xF30A).key[k.val] = false := by decide

theorem witness_DecodeInvertsEncode :
    (Instr.drw 0xF 0xE 0xD).wf = true ∧ (Instr.unknown 0xFFFF).wf = true := by decide

theorem witness_MapRowsDoNotOverlap :
    (⟨"CLS", 0xFFFF, 0x00E0⟩ : OpcodeRow) ∈ opcodeTable ∧
    (0x00E0 : Word16) &&& 0xFFFF = 0x00E0 := by decide

theorem witness_LoadCopiesTheImageOrRefusesIt :
    State.reset.mem.wf = true ∧ (List.replicate 3584 (0x12 : Byte)).length ≤ 3584 ∧
    (List.replicate 3585 (0x12 : Byte)).length > 3584 := by
  simp only [List.length_replicate]
  decide

theorem witness_EveryStepKeepsTheInvariant :
    (start 0x2210).Inv ∧ gives (step (start 0x2210)) (fun t => decide (t.sp = 1)) = true := by decide

/-- V13's program, loaded and stepped once. -/
theorem witness_ReachableStatesMeetTheInvariant :
    ∃ h : Session, Reachable h ∧ h.core.pc = 0x0204 :=
  ⟨_, .move .step (.move (.load (some [0x12, 0x04])) .start rfl) rfl, by decide⟩

theorem witness_OnlyRandomReadsTheDraws :
    (∀ x nn, Instr.cls ≠ .rnd x nn) ∧ ∃ t, exec .cls State.reset = .next t :=
  ⟨fun _ _ h => (nomatch h), ⟨_, rfl⟩⟩

theorem witness_NoInstructionReadsTheSoundTimer :
    ∃ t, exec (.ldSTVx 3) State.reset = .next t := ⟨_, rfl⟩

/-- Two states that differ in a dead entry, and a RET that pops the live one below it. -/
theorem witness_DeadStackEntriesAreNeverRead :
    ∃ t, AgreeButDeadEntries { start 0x00EE with sp := 1 }
        { start 0x00EE with sp := 1, stack := State.reset.stack.set 1 0x0777 } ∧
      step { start 0x00EE with sp := 1 } = .next t := by
  refine ⟨_, ⟨rfl, ?_⟩, rfl⟩
  decide

/-- The boot order of R173, and the moves U8 rules out: a second load, a load after a step, a step
before a load, a step after LoadError. -/
theorem test_host_order :
    ((Session.start.move (.load (some [0x12, 0x04]))).bind (·.move (.load (some [])))).isNone = true ∧
    ((Session.start.move (.load (some [0x12, 0x04]))).bind (·.move .step)).isSome = true ∧
    (((Session.start.move (.load (some [0x12, 0x04]))).bind (·.move .step)).bind
      (·.move (.load (some [])))).isNone = true ∧
    (Session.start.move .step).isNone = true ∧
    ((Session.start.move (.load none)).bind (·.move .step)).isNone = true ∧
    (((Session.start.move (.load none)).bind (·.move .reset)).bind
      (·.move (.load (some [])))).isSome = true := by decide

/-- Every clause: a load that succeeds, at the greatest length; one byte more; a source that cannot
be read; a running core's key move; an unloaded core with a key down. -/
theorem witness_HostLoadsOnceBeforeTheFirstStep :
    (∃ k, Session.start.move (.load (some [0x12])) = some k) ∧
    (Session.start.stage = .atReset ∧ (List.replicate 3584 (0x12 : Byte)).length ≤ 3584 ∧
      (List.replicate 3585 (0x12 : Byte)).length > 3584) ∧
    (∃ k, (⟨State.reset, .loaded⟩ : Session).move .step = some k) ∧
    (∃ k, (⟨State.reset, .loaded⟩ : Session).move (.setKeys (Vector.replicate 16 true)) = some k ∧
      HostMove.setKeys (Vector.replicate 16 true) ≠ .step ∧
      HostMove.setKeys (Vector.replicate 16 true) ≠ .reset) ∧
    (∃ h : Session, Reachable h ∧ h.stage ≠ .loaded ∧ h.core.keyDown 3 = true) :=
  ⟨⟨_, rfl⟩, ⟨rfl, by simp only [List.length_replicate]; decide,
      by simp only [List.length_replicate]; decide⟩, ⟨_, rfl⟩,
    ⟨_, rfl, nofun, nofun⟩,
    ⟨_, .move (.setKeys (Vector.replicate 16 true)) .start rfl, by decide, by decide⟩⟩

end Sys2Proof.Tests
end

section
/-! PROOFS. Control flow (spec/41_control_flow.md): what a write of `pc` alone and a skip leave
unchanged, the jump, and the four register skips. -/

namespace Sys2Proof.Machine

/-! ### Writes of `pc` alone -/

theorem frameBut_setPc (s : State) (target : Word16) :
    FrameBut [.pc] s { s with pc := target } := by
  intro f hf
  cases f
  case pc => simp at hf
  all_goals simp [SameField]

theorem State.skipIf_eq_setPc (s : State) (c : Bool) :
    s.skipIf c = { s with pc := if c then s.pc + 2 else s.pc } := by
  cases c <;> rfl

theorem frameBut_skipIf (s : State) (c : Bool) : FrameBut [.pc] s (s.skipIf c) := by
  rw [State.skipIf_eq_setPc]
  exact frameBut_setPc s _

/-! ### JP nnn (R81) -/

/-- Zero extension to 16 bits keeps the 12-bit address as a number (R61). -/
@[simp] theorem zextAddr_toNat (nnn : Addr12) : (zextAddr nnn).toNat = nnn.toNat :=
  BitVec.toNat_setWidth_of_le (by decide)

theorem exec_jp (nnn : Addr12) (s : State) :
    exec (.jp nnn) s = .next { s with pc := zextAddr nnn } := rfl

/-- Settles O9: the jump is a write of `pc` alone, and zero extension keeps the address. -/
theorem jumpLoadsPc : Obligations.JumpLoadsPc := by
  intro nnn s
  exact ⟨_, exec_jp nnn s, zextAddr_toNat nnn, frameBut_setPc s _⟩

/-! ### The register skips (R83 to R86) -/

theorem exec_seImm (x : Reg) (nn : Byte) (s : State) :
    exec (.seImm x nn) s = .next (s.skipIf (decide (s.reg x = nn))) := rfl

theorem exec_sneImm (x : Reg) (nn : Byte) (s : State) :
    exec (.sneImm x nn) s = .next (s.skipIf (decide (s.reg x ≠ nn))) := rfl

theorem exec_seReg (x y : Reg) (ignored : Nibble) (s : State) :
    exec (.seReg x y ignored) s = .next (s.skipIf (decide (s.reg x = s.reg y))) := rfl

theorem exec_sneReg (x y : Reg) (ignored : Nibble) (s : State) :
    exec (.sneReg x y ignored) s = .next (s.skipIf (decide (s.reg x ≠ s.reg y))) := rfl

/-- An instruction that answers a skip on the condition `p` advances `pc` by 2 exactly when `p`
holds, and writes no other field. -/
theorem skip_advances_iff {i : Instr} {s : State} {p : Prop} [Decidable p]
    (h : exec i s = .next (s.skipIf (decide p))) :
    ∃ t, exec i s = .next t ∧ t.pc = (if p then s.pc + 2 else s.pc) ∧ FrameBut [.pc] s t :=
  ⟨_, h, by simp, frameBut_skipIf s _⟩

/-- The skip on a negated condition: `pc` stays exactly when `p` holds. -/
theorem skip_advances_iff_not {i : Instr} {s : State} {p : Prop} [Decidable p]
    (h : exec i s = .next (s.skipIf (decide (¬ p)))) :
    ∃ t, exec i s = .next t ∧ t.pc = (if p then s.pc else s.pc + 2) ∧ FrameBut [.pc] s t := by
  simpa only [ite_not] using skip_advances_iff h

/-- Settles O11: each form is a skip on its comparison, the SNE forms on the negated one. -/
theorem skipsCompareAndAdvanceByTwo : Obligations.SkipsCompareAndAdvanceByTwo := by
  intro x y nn ignored s
  exact ⟨skip_advances_iff (exec_seImm x nn s),
    skip_advances_iff_not (exec_sneImm x nn s),
    skip_advances_iff (exec_seReg x y ignored s),
    skip_advances_iff_not (exec_sneReg x y ignored s)⟩

end Sys2Proof.Machine
end

section
/-! PROOFS. Register, arithmetic, logic and shift instructions (spec/42_alu.md): what a write of
`V[x]`, alone or with the flag, leaves unchanged, the flags as numbers, and the instructions'
results. -/

namespace Sys2Proof.Machine

/-! ### What a register write leaves unchanged -/

/-- Every register write is a new register file and nothing else, so this frame serves them all. -/
theorem frameBut_withV (s : State) (V : Vector Byte 16) : FrameBut [.V] s { s with V := V } := by
  intro f hf
  cases f
  case V => simp at hf
  all_goals simp [SameField]

theorem frameBut_setReg (s : State) (x : Reg) (b : Byte) : FrameBut [.V] s (s.setReg x b) :=
  frameBut_withV s _

theorem frameBut_setRegFlag (s : State) (x : Reg) (b : Byte) (f : Bool) :
    FrameBut [.V] s (s.setRegFlag x b f) :=
  frameBut_withV s _

theorem regsBut_setReg (s : State) (x : Reg) (b : Byte) : RegsBut [x] s (s.setReg x b) :=
  fun _ hr => s.reg_setReg_other b (List.ne_of_not_mem_cons hr)

theorem regsBut_setRegFlag (s : State) (x : Reg) (b : Byte) (f : Bool) :
    RegsBut [x, Reg.flag] s (s.setRegFlag x b f) := by
  intro r hr
  obtain ⟨hx, hf⟩ : r ≠ x ∧ r ≠ Reg.flag := by simpa using hr
  exact s.reg_setRegFlag_other b f hx hf

/-! ### The flags as numbers (R12) -/

theorem flagByte_addCarry (a b : Byte) :
    flagByte (addCarry a b) = if a.toNat + b.toNat > 255 then 0x01 else 0x00 := by
  simp only [flagByte, addCarry, decide_eq_true_eq]

theorem flagByte_toNat (b : Bool) : (flagByte b).toNat = b.toNat := by
  cases b <;> rfl

theorem toNat_shiftedOutLow (b : Byte) : (shiftedOutLow b).toNat = b.toNat % 2 := by
  have hbit : (shiftedOutLow b).toNat = b.toNat / 2 ^ 0 % 2 := Nat.toNat_testBit b.toNat 0
  rwa [pow_zero, Nat.div_one] at hbit

/-- Bit 7 is the quotient by 128, since a byte is below 256. -/
theorem toNat_shiftedOutHigh (b : Byte) : (shiftedOutHigh b).toNat = b.toNat / 128 := by
  have hbit : (shiftedOutHigh b).toNat = b.toNat / 2 ^ 7 % 2 := Nat.toNat_testBit b.toNat 7
  have hb : b.toNat < 256 := b.isLt
  omega

/-! ### Shifts by one as numbers (R98, R100) -/

theorem toNat_shiftRight_one (b : Byte) : (b >>> 1).toNat = b.toNat / 2 := by
  rw [BitVec.toNat_ushiftRight, Nat.shiftRight_one]

theorem toNat_shiftLeft_one (b : Byte) : (b <<< 1).toNat = 2 * b.toNat % 256 := by
  rw [BitVec.toNat_shiftLeft, Nat.shiftLeft_eq, Nat.mul_comm]

/-! ### Writes of `V[x]` without a flag (R90 to R95) -/

theorem exec_ldImm (x : Reg) (nn : Byte) (s : State) :
    exec (.ldImm x nn) s = .next (s.setReg x nn) := rfl

theorem exec_addImm (x : Reg) (nn : Byte) (s : State) :
    exec (.addImm x nn) s = .next (s.setReg x (BitVec.ofNat 8 ((s.reg x).toNat + nn.toNat))) := rfl

theorem exec_ldReg (x y : Reg) (s : State) :
    exec (.ldReg x y) s = .next (s.setReg x (s.reg y)) := rfl

theorem exec_or (x y : Reg) (s : State) :
    exec (.or x y) s = .next (s.setReg x (s.reg x ||| s.reg y)) := rfl

theorem exec_and (x y : Reg) (s : State) :
    exec (.and x y) s = .next (s.setReg x (s.reg x &&& s.reg y)) := rfl

theorem exec_xor (x y : Reg) (s : State) :
    exec (.xor x y) s = .next (s.setReg x (s.reg x ^^^ s.reg y)) := rfl

/-- An instruction that answers `setReg` leaves the value in `V[x]` and changes nothing else. -/
theorem setReg_writes_only {i : Instr} {s : State} {x : Reg} {b : Byte}
    (h : exec i s = .next (s.setReg x b)) :
    ∃ t, exec i s = .next t ∧ t.reg x = b ∧ RegsBut [x] s t ∧ FrameBut [.V] s t :=
  ⟨_, h, s.reg_setReg_same x b, regsBut_setReg s x b, frameBut_setReg s x b⟩

/-- Settles O1: the instruction is one register write. -/
theorem loadImmediateWritesOnlyVx : Obligations.LoadImmediateWritesOnlyVx :=
  fun x nn s => setReg_writes_only (exec_ldImm x nn s)

/-- Settles O2: the sum is reduced by the width of the byte written. -/
theorem addImmediateWrapsWithoutFlag : Obligations.AddImmediateWrapsWithoutFlag := by
  intro x nn s
  obtain ⟨t, ht, hx, hregs, hframe⟩ := setReg_writes_only (exec_addImm x nn s)
  exact ⟨t, ht, by rw [hx, BitVec.toNat_ofNat], hregs, hframe⟩

/-- Settles O3: each form is one register write, whose value is read bit by bit. -/
theorem copyAndBitwiseWriteOnlyVx : Obligations.CopyAndBitwiseWriteOnlyVx := by
  intro x y s
  refine ⟨setReg_writes_only (exec_ldReg x y s), ?or, ?and, ?xor⟩
  case or =>
    obtain ⟨t, ht, hx, hregs, hframe⟩ := setReg_writes_only (exec_or x y s)
    exact ⟨t, ht, fun k _ => by rw [hx, BitVec.getLsbD_or], hregs, hframe⟩
  case and =>
    obtain ⟨t, ht, hx, hregs, hframe⟩ := setReg_writes_only (exec_and x y s)
    exact ⟨t, ht, fun k _ => by rw [hx, BitVec.getLsbD_and], hregs, hframe⟩
  case xor =>
    obtain ⟨t, ht, hx, hregs, hframe⟩ := setReg_writes_only (exec_xor x y s)
    exact ⟨t, ht, fun k _ => by rw [hx, BitVec.getLsbD_xor], hregs, hframe⟩

/-! ### Writes of `V[x]` and the flag (R96, R98, R100) -/

theorem exec_addReg (x y : Reg) (s : State) :
    exec (.addReg x y) s = .next (s.setRegFlag x
      (BitVec.ofNat 8 ((s.reg x).toNat + (s.reg y).toNat)) (addCarry (s.reg x) (s.reg y))) := rfl

theorem exec_shr (x y : Reg) (s : State) :
    exec (.shr x y) s = .next (s.setRegFlag x (s.reg y >>> 1) (shiftedOutLow (s.reg y))) := rfl

theorem exec_shl (x y : Reg) (s : State) :
    exec (.shl x y) s = .next (s.setRegFlag x (s.reg y <<< 1) (shiftedOutHigh (s.reg y))) := rfl

/-- An instruction that answers `setRegFlag` with a destination other than VF leaves the result in
`V[x]` and the flag in VF, and changes nothing else. -/
theorem setRegFlag_writes_only {i : Instr} {s : State} {x : Reg} {b : Byte} {f : Bool}
    (h : exec i s = .next (s.setRegFlag x b f)) (hx : x ≠ Reg.flag) :
    ∃ t, exec i s = .next t ∧ t.reg x = b ∧ t.reg Reg.flag = flagByte f ∧
      RegsBut [x, Reg.flag] s t ∧ FrameBut [.V] s t :=
  ⟨_, h, s.reg_setRegFlag_dest b f hx, s.reg_setRegFlag_flag x b f,
    regsBut_setRegFlag s x b f, frameBut_setRegFlag s x b f⟩

/-- Settles O4: the result is the sum at the byte's width, the flag the carry of the operands. -/
theorem addRegistersSetsCarry : Obligations.AddRegistersSetsCarry := by
  intro x y s hx
  obtain ⟨t, ht, hres, hflag, hregs, hframe⟩ := setRegFlag_writes_only (exec_addReg x y s) hx
  exact ⟨t, ht, by rw [hres, BitVec.toNat_ofNat], by rw [hflag, flagByte_addCarry], hregs, hframe⟩

/-- Settles O6: the shifted source is a half or a double, the bit shifted out a remainder or a
quotient. -/
theorem shiftsReadVyAndKeepTheBitShiftedOut :
    Obligations.ShiftsReadVyAndKeepTheBitShiftedOut := by
  intro x y s hx
  constructor
  · obtain ⟨t, ht, hres, hflag, hregs, hframe⟩ := setRegFlag_writes_only (exec_shr x y s) hx
    exact ⟨t, ht, by rw [hres, toNat_shiftRight_one],
      by rw [hflag, flagByte_toNat, toNat_shiftedOutLow], hregs, hframe⟩
  · obtain ⟨t, ht, hres, hflag, hregs, hframe⟩ := setRegFlag_writes_only (exec_shl x y s) hx
    exact ⟨t, ht, by rw [hres, toNat_shiftLeft_one],
      by rw [hflag, flagByte_toNat, toNat_shiftedOutHigh], hregs, hframe⟩

end Sys2Proof.Machine
end

section
/-! PROOFS. Index-register instructions (spec/43_index_memory.md): what a write of `I` leaves
unchanged, how frames compose, and the two instructions that write `I` from an operand. -/

namespace Sys2Proof.Machine

/-! ### Frames in sequence -/

theorem SameField.trans {s t u : State} {f : Field} (hst : SameField s t f)
    (htu : SameField t u f) : SameField s u f := by
  cases f
  case mem => exact fun a => (htu a).trans (hst a)
  all_goals exact Eq.trans htu hst

/-- Two writes in a row change at most what one of them changes. -/
theorem FrameBut.trans {fs gs : List Field} {s t u : State} (hst : FrameBut fs s t)
    (htu : FrameBut gs t u) : FrameBut (fs ++ gs) s u := by
  intro f hf
  obtain ⟨hfs, hgs⟩ : f ∉ fs ∧ f ∉ gs := by simpa using hf
  exact (hst f hfs).trans (htu f hgs)

/-! ### Writes of `I` -/

theorem frameBut_setI (s : State) (i : Word16) : FrameBut [.I] s { s with I := i } := by
  intro f hf
  cases f
  case I => simp at hf
  all_goals simp [SameField]

@[simp] theorem State.reg_setI (s : State) (i : Word16) (r : Reg) :
    ({ s with I := i } : State).reg r = s.reg r := rfl

/-! ### LD I, nnn (R110) -/

theorem exec_ldI (nnn : Addr12) (s : State) :
    exec (.ldI nnn) s = .next { s with I := zextAddr nnn } := rfl

/-- Settles O15: the instruction is a write of `I` alone, and zero extension keeps the address. -/
theorem loadIndexAssigns : Obligations.LoadIndexAssigns := by
  intro nnn s
  exact ⟨_, exec_ldI nnn s, zextAddr_toNat nnn, frameBut_setI s _⟩

/-! ### ADD I, Vx (R111) -/

theorem regsBut_setFlag (s : State) (b : Bool) : RegsBut [Reg.flag] s (s.setFlag b) :=
  regsBut_setReg s Reg.flag (flagByte b)

theorem frameBut_setFlag (s : State) (b : Bool) : FrameBut [.V] s (s.setFlag b) :=
  frameBut_setReg s Reg.flag (flagByte b)

theorem flagByte_indexOverflow (i : Word16) (b : Byte) :
    flagByte (indexOverflow i b) = if i.toNat + b.toNat > 0xFFFF then 0x01 else 0x00 := by
  simp only [flagByte, indexOverflow, decide_eq_true_eq]

/-- Sum and flag are both taken from the operands in `s`, so VF as the addend is its old value. -/
theorem exec_addI (x : Reg) (s : State) :
    exec (.addI x) s = .next (State.setFlag
      { s with I := BitVec.ofNat 16 (s.I.toNat + (s.reg x).toNat) }
      (indexOverflow s.I (s.reg x))) := rfl

/-- Settles O16: a write of `I`, the sum at 16 bits, followed by a write of the flag. -/
theorem addToIndexSetsOverflowFlag : Obligations.AddToIndexSetsOverflowFlag := by
  intro x s
  refine ⟨_, exec_addI x s, ?sum, ?flag, ?regs, ?frame⟩
  case sum => rw [State.setFlag_I, BitVec.toNat_ofNat]
  case flag => rw [State.reg_setFlag_flag, flagByte_indexOverflow]
  case regs =>
    intro r hr
    rw [regsBut_setFlag _ _ r hr, State.reg_setI]
  case frame => exact (frameBut_setI s _).trans (frameBut_setFlag _ _)

end Sys2Proof.Machine
end

section
/-! PROOFS. Display instructions (spec/44_display.md): what a write of the frame leaves unchanged,
and the clear screen. -/

namespace Sys2Proof.Machine

/-! ### Writes of the frame -/

theorem frameBut_setDisp (s : State) (d : Frame) : FrameBut [.disp] s { s with disp := d } := by
  intro f hf
  cases f
  case disp => simp at hf
  all_goals simp [SameField]

/-! ### CLS (R120) -/

theorem exec_cls (s : State) : exec .cls s = .next { s with disp := Frame.blank } := rfl

/-- Settles O24: the instruction is a write of the frame alone, by the one with no pixel set. -/
theorem clearScreenClearsEveryPixel : Obligations.ClearScreenClearsEveryPixel := by
  intro s
  exact ⟨_, exec_cls s, fun row col _ _ => Frame.pixel_blank row col, frameBut_setDisp s _⟩

end Sys2Proof.Machine
end

section
/-! PROOFS. Encoding (spec/30_encoding.md): a word is its fields, every family's decoder loses no
bit, and decoder, encoder and opcode map agree on every word. -/

namespace Sys2Proof

/-! ### A word is its fields (R51, R52) -/

theorem wordNNN_fields (w : Word16) : wordNNN (opField w) (nnnField w) = w := by
  apply BitVec.eq_of_getLsbD_eq
  intro i hi
  simp only [wordNNN, opField, nnnField, BitVec.getLsbD_append, BitVec.getLsbD_extractLsb']
  interval_cases i <;> simp

theorem wordXNN_fields (w : Word16) : wordXNN (opField w) (xField w) (nnField w) = w := by
  apply BitVec.eq_of_getLsbD_eq
  intro i hi
  simp only [wordXNN, opField, xField, nnField, regBits, BitVec.ofFin_toFin,
    BitVec.getLsbD_append, BitVec.getLsbD_extractLsb']
  interval_cases i <;> simp

theorem wordXYN_fields (w : Word16) :
    wordXYN (opField w) (xField w) (yField w) (nField w) = w := by
  apply BitVec.eq_of_getLsbD_eq
  intro i hi
  simp only [wordXYN, opField, xField, yField, nField, regBits, BitVec.ofFin_toFin,
    BitVec.getLsbD_append, BitVec.getLsbD_extractLsb']
  interval_cases i <;> simp

theorem wordNNN_of_opField {w : Word16} {op : Nibble} (h : opField w = op) :
    wordNNN op (nnnField w) = w := h ▸ wordNNN_fields w

theorem wordXNN_of_opField {w : Word16} {op : Nibble} (h : opField w = op) :
    wordXNN op (xField w) (nnField w) = w := h ▸ wordXNN_fields w

theorem wordXYN_of_opField {w : Word16} {op : Nibble} (h : opField w = op) :
    wordXYN op (xField w) (yField w) (nField w) = w := h ▸ wordXYN_fields w

theorem wordXNN_of_key {w : Word16} {op : Nibble} {key : Byte} (h : opField w = op)
    (hk : nnField w = key) : wordXNN op (xField w) key = w := hk ▸ wordXNN_of_opField h

theorem wordXYN_of_key {w : Word16} {op key : Nibble} (h : opField w = op)
    (hk : nField w = key) : wordXYN op (xField w) (yField w) key = w := hk ▸ wordXYN_of_opField h

/-! ### The two-level families lose no bit (R56 to R60) -/

/-- The instruction is well formed and its word is `w`. -/
abbrev IsInstrOf (w : Word16) (i : Instr) : Prop := i.wf = true ∧ encode i = w

theorem unknownWord_family0 {w : Word16} (h : opField w = 0x0) :
    unknownWord w = (!(w == 0x00E0) && !(w == 0x00EE)) := by
  simp [unknownWord, ← opField_toNat, h]

theorem unknownWord_family8 {w : Word16} (h : opField w = 0x8) :
    unknownWord w = [0x8, 0x9, 0xA, 0xB, 0xC, 0xD, 0xF].contains (nField w).toNat := by
  simp [unknownWord, ← opField_toNat, ← nField_toNat, h]

theorem unknownWord_familyE {w : Word16} (h : opField w = 0xE) :
    unknownWord w = !([0x9E, 0xA1].contains (nnField w).toNat) := by
  simp [unknownWord, ← opField_toNat, ← nnField_toNat, h]

theorem unknownWord_familyF {w : Word16} (h : opField w = 0xF) :
    unknownWord w = !([0x07, 0x0A, 0x15, 0x18, 0x1E, 0x29, 0x33, 0x55, 0x65].contains
      (nnField w).toNat) := by
  simp [unknownWord, ← opField_toNat, ← nnField_toNat, h]

theorem decodeFamily0_isInstrOf {w : Word16} (h : opField w = 0x0) :
    IsInstrOf w (decodeFamily0 w) := by
  unfold decodeFamily0
  split
  case h_1 | h_2 => exact ⟨rfl, rfl⟩
  case h_3 hcls hret =>
    refine ⟨?_, rfl⟩
    rw [Instr.wf, unknownWord_family0 h]
    simpa using ⟨hcls, hret⟩

theorem decodeFamily8_isInstrOf {w : Word16} (h : opField w = 0x8) :
    IsInstrOf w (decodeFamily8 w) := by
  unfold decodeFamily8
  split
  case h_10 =>
    refine ⟨?_, rfl⟩
    rw [Instr.wf, unknownWord_family8 h]
    generalize nField w = n at *
    clear h
    revert n
    decide
  all_goals exact ⟨rfl, wordXYN_of_key h ‹_›⟩

theorem decodeFamilyE_isInstrOf {w : Word16} (h : opField w = 0xE) :
    IsInstrOf w (decodeFamilyE w) := by
  unfold decodeFamilyE
  split
  case h_3 hskp hsknp =>
    refine ⟨?_, rfl⟩
    rw [Instr.wf, unknownWord_familyE h]
    generalize nnField w = nn at *
    clear h
    revert nn
    decide
  all_goals exact ⟨rfl, wordXNN_of_key h ‹_›⟩

theorem decodeFamilyF_isInstrOf {w : Word16} (h : opField w = 0xF) :
    IsInstrOf w (decodeFamilyF w) := by
  unfold decodeFamilyF
  split
  case h_10 =>
    refine ⟨?_, rfl⟩
    rw [Instr.wf, unknownWord_familyF h]
    generalize nnField w = nn at *
    clear h
    revert nn
    decide
  all_goals exact ⟨rfl, wordXNN_of_key h ‹_›⟩

/-! ### The decoder loses no bit (R53, R60) -/

/-- Primary dispatch: a one-level family puts its word together from the fields it took. -/
theorem decodeWord_isInstrOf (w : Word16) : IsInstrOf w (decodeWord w) := by
  unfold decodeWord
  split
  case h_1 h => exact decodeFamily0_isInstrOf h
  case h_9 h => exact decodeFamily8_isInstrOf h
  case h_15 h => exact decodeFamilyE_isInstrOf h
  case h_16 =>
    refine decodeFamilyF_isInstrOf ?_
    generalize opField w = op at *
    revert op
    decide
  case h_2 h | h_3 h | h_11 h => exact ⟨rfl, wordNNN_of_opField h⟩
  case h_4 h | h_5 h | h_7 h | h_8 h | h_12 h | h_13 h => exact ⟨rfl, wordXNN_of_opField h⟩
  case h_6 h | h_10 h | h_14 h => exact ⟨rfl, wordXYN_of_opField h⟩

/-- Settles O48: family by family, the word is put together from the fields the decoder took. -/
theorem encodeInvertsDecode : Obligations.EncodeInvertsDecode := decodeWord_isInstrOf

/-! ### Decoder and encoder against the opcode map (R64) -/

/-- The encoder's word selects the instruction's own row, for every well-formed instruction. -/
theorem tableMnemonic_encode (i : Instr) : Laws.TableRow.Statement i := by
  cases i with
  | cls => exact Laws.TableRow.cls
  | ret => exact Laws.TableRow.ret
  | jp nnn => exact Laws.TableRow.jp nnn
  | call nnn => exact Laws.TableRow.call nnn
  | seImm x nn => exact Laws.TableRow.seImm x nn
  | sneImm x nn => exact Laws.TableRow.sneImm x nn
  | seReg x y ignored => exact Laws.TableRow.seReg x y ignored
  | ldImm x nn => exact Laws.TableRow.ldImm x nn
  | addImm x nn => exact Laws.TableRow.addImm x nn
  | ldReg x y => exact Laws.TableRow.ldReg x y
  | or x y => exact Laws.TableRow.or x y
  | and x y => exact Laws.TableRow.and x y
  | xor x y => exact Laws.TableRow.xor x y
  | addReg x y => exact Laws.TableRow.addReg x y
  | sub x y => exact Laws.TableRow.sub x y
  | shr x y => exact Laws.TableRow.shr x y
  | subn x y => exact Laws.TableRow.subn x y
  | shl x y => exact Laws.TableRow.shl x y
  | sneReg x y ignored => exact Laws.TableRow.sneReg x y ignored
  | ldI nnn => exact Laws.TableRow.ldI nnn
  | jpOff x nn => exact Laws.TableRow.jpOff x nn
  | rnd x nn => exact Laws.TableRow.rnd x nn
  | drw x y n => exact Laws.TableRow.drw x y n
  | skp x => exact Laws.TableRow.skp x
  | sknp x => exact Laws.TableRow.sknp x
  | ldVxDT x => exact Laws.TableRow.ldVxDT x
  | ldVxK x => exact Laws.TableRow.ldVxK x
  | ldDTVx x => exact Laws.TableRow.ldDTVx x
  | ldSTVx x => exact Laws.TableRow.ldSTVx x
  | addI x => exact Laws.TableRow.addI x
  | ldF x => exact Laws.TableRow.ldF x
  | ldB x => exact Laws.TableRow.ldB x
  | storeRegs x => exact Laws.TableRow.storeRegs x
  | loadRegs x => exact Laws.TableRow.loadRegs x
  | unknown w => exact Laws.TableRow.unknown w

/-- Settles O49: the word is that of the instruction decoded, and the encoder's words select their
own rows. -/
theorem dispatchFollowsTheMap : Obligations.DispatchFollowsTheMap := by
  intro w
  obtain ⟨hwf, henc⟩ := decodeWord_isInstrOf w
  rw [← tableMnemonic_encode _ hwf, henc]

theorem eq_unknown_of_mnemonic {i : Instr} (h : i.mnemonic = "UNKNOWN") : ∃ w, i = .unknown w := by
  cases i with
  | unknown w => exact ⟨w, rfl⟩
  | _ => simp [Instr.mnemonic] at h

/-- A word no row of the map takes decodes to UNKNOWN, which carries the word itself. -/
theorem decodeWord_unknown {w : Word16} (h : unknownWord w = true) :
    decodeWord w = .unknown w := by
  have hrow : (decodeWord w).mnemonic = "UNKNOWN" :=
    (dispatchFollowsTheMap w).trans (tableMnemonic_encode (.unknown w) h)
  obtain ⟨v, hv⟩ := eq_unknown_of_mnemonic hrow
  have hword : encode (.unknown v) = w := hv ▸ (decodeWord_isInstrOf w).2
  rw [hv, ← hword]
  rfl

/-- The fields of the encoder's word are the instruction's, its family and key the instruction's
row; only UNKNOWN needs well-formedness. -/
theorem decodeWord_encode {i : Instr} (h : i.wf = true) : decodeWord (encode i) = i := by
  cases i with
  | unknown w => exact decodeWord_unknown h
  | cls | ret => rfl
  | _ => simp [encode, decodeWord, decodeFamily8, decodeFamilyE, decodeFamilyF]

/-- Settles O47: the two bytes make the word again, and the word decodes to the instruction. -/
theorem decodeInvertsEncode : Obligations.DecodeInvertsEncode := by
  intro i rest h
  simp [encodeBytes, decode, decodeWord_encode h]

/-- Settles O51: what decodes to UNKNOWN is well formed, so a listed word; and conversely. -/
theorem unknownWordsAreExactlyTheListedSet : Obligations.UnknownWordsAreExactlyTheListedSet := by
  intro w
  refine ⟨fun h => ?_, decodeWord_unknown⟩
  obtain ⟨hwf, -⟩ := decodeWord_isInstrOf w
  rwa [h] at hwf

/-! ### The rows of the map (R64) -/

/-- Two rows whose values agree on the bits both masks compare are the same row. -/
theorem row_eq_of_common_bits : ∀ r ∈ opcodeTable, ∀ q ∈ opcodeTable,
    r.value &&& q.mask = q.value &&& r.mask → r = q := by decide

/-- Settles O50: a word in two rows gives both rows the same bits where both masks compare. -/
theorem mapRowsDoNotOverlap : Obligations.MapRowsDoNotOverlap := by
  intro w r q hr hq hwr hwq
  refine row_eq_of_common_bits r hr q hq ?_
  calc r.value &&& q.mask = (w &&& r.mask) &&& q.mask := by rw [hwr]
    _ = (w &&& q.mask) &&& r.mask := by ac_rfl
    _ = q.value &&& r.mask := by rw [hwq]

/-- Settles O46: nine closed words, each run through the decoder. -/
theorem writtenOutWordsDecode : Obligations.WrittenOutWordsDecode := by
  unfold Obligations.WrittenOutWordsDecode
  decide

end Sys2Proof
end

section
/-! PROOFS. Execute in closed form (spec/40_cycle.md R73, R149): an instruction that meets a fatal
condition answers `raise`, every other answers `effect`. The rules about all instructions at once
(fatal conditions, fields, registers, flags, `pc`) are read off `effect`. -/

namespace Sys2Proof.Machine

/-! ### The effect of an instruction that meets no fatal condition -/

/-- `pc` after a skip on the condition `c` (R88). -/
def State.skipPc (s : State) (c : Bool) : Word16 := if c then s.pc + 2 else s.pc

/-- Is the key with number `k` down? A number above 15 names none. -/
def State.keyAt (s : State) (k : Nat) : Bool := s.key[k]?.getD false

/-- The register file after LD Vx, [I] (R115). -/
def State.loadedRegs (s : State) (x : Reg) : Vector Byte 16 :=
  Vector.ofFn fun r => if r ≤ x then s.mem.read (s.I.toNat + r.val) else s.reg r

/-- LD Vx, K once the key latch has been scanned (R133). -/
def State.awaited (s : State) (x : Reg) : Option (Fin 16) → State
  | some k => s.setReg x (BitVec.ofNat 8 k.val)
  | none => { s with pc := s.pc - 2 }

/-- Frame and hit flag after the sprite of DRW Vx, Vy, n is drawn (R121). -/
def State.drawn (s : State) (x y : Reg) (n : Nibble) : Frame × Bool :=
  drawSprite (s.mem.bytesAt s.I.toNat n.toNat) (originRow (s.reg y)) (originCol (s.reg x))
    (s.disp, false)

/-- The next state of an instruction that meets no fatal condition, as field updates: tied to
`exec` by `exec_eq_effect`. -/
def effect (s : State) : Instr → State
  | .cls => { s with disp := Frame.blank }
  | .ret => { s with
      sp := ⟨s.sp.val - 1, by omega⟩, pc := s.stack[s.sp.val - 1]'(by omega) }
  | .jp nnn => { s with pc := zextAddr nnn }
  | .call nnn => { s with
      stack := s.stack.setIfInBounds s.sp.val s.pc, sp := s.sp + 1, pc := zextAddr nnn }
  | .seImm x nn => { s with pc := s.skipPc (decide (s.reg x = nn)) }
  | .sneImm x nn => { s with pc := s.skipPc (decide (s.reg x ≠ nn)) }
  | .seReg x y _ => { s with pc := s.skipPc (decide (s.reg x = s.reg y)) }
  | .sneReg x y _ => { s with pc := s.skipPc (decide (s.reg x ≠ s.reg y)) }
  | .jpOff x nn => { s with pc := jumpOffTarget x nn s }
  | .ldImm x nn => s.setReg x nn
  | .addImm x nn => s.setReg x (BitVec.ofNat 8 ((s.reg x).toNat + nn.toNat))
  | .ldReg x y => s.setReg x (s.reg y)
  | .or x y => s.setReg x (s.reg x ||| s.reg y)
  | .and x y => s.setReg x (s.reg x &&& s.reg y)
  | .xor x y => s.setReg x (s.reg x ^^^ s.reg y)
  | .addReg x y => s.setRegFlag x (BitVec.ofNat 8 ((s.reg x).toNat + (s.reg y).toNat))
      (addCarry (s.reg x) (s.reg y))
  | .sub x y => s.setRegFlag x (BitVec.ofInt 8 ((s.reg x).toNat - (s.reg y).toNat))
      (noBorrow (s.reg x) (s.reg y))
  | .subn x y => s.setRegFlag x (BitVec.ofInt 8 ((s.reg y).toNat - (s.reg x).toNat))
      (noBorrow (s.reg y) (s.reg x))
  | .shr x y => s.setRegFlag x (s.reg y >>> 1) (shiftedOutLow (s.reg y))
  | .shl x y => s.setRegFlag x (s.reg y <<< 1) (shiftedOutHigh (s.reg y))
  | .rnd x nn => s.nextDraw.setReg x (s.rnd &&& nn)
  | .ldI nnn => { s with I := zextAddr nnn }
  | .addI x => State.setFlag { s with I := BitVec.ofNat 16 (s.I.toNat + (s.reg x).toNat) }
      (indexOverflow s.I (s.reg x))
  | .ldF x => { s with I := glyphAddr (digitOf (s.reg x)) }
  | .ldB x => { s with mem := s.mem.writeList s.I.toNat (decimalDigits (s.reg x)) }
  | .storeRegs x => { s with mem := s.mem.writeList s.I.toNat (s.regsUpTo x) }
  | .loadRegs x => { s with V := s.loadedRegs x }
  | .drw x y n => State.setFlag { s with disp := (s.drawn x y n).1 } (s.drawn x y n).2
  | .skp x => { s with pc := s.skipPc (s.keyAt (s.reg x).toNat) }
  | .sknp x => { s with pc := s.skipPc (!s.keyAt (s.reg x).toNat) }
  | .ldVxDT x => s.setReg x s.DT
  | .ldVxK x => s.awaited x s.lowestKey
  | .ldDTVx x => { s with DT := s.reg x }
  | .ldSTVx x => { s with ST := s.reg x }
  | .unknown _ => { s with report := some ⟨s.pc, s.opcode⟩ }

/-! ### Block load into the register file -/

theorem State.setRegsFrom_eq_withV (s : State) (k : Nat) (bs : List Byte) :
    s.setRegsFrom k bs = { s with V := (s.setRegsFrom k bs).V } := by
  induction bs generalizing s k with
  | nil => rfl
  | cons b bs ih => exact ih _ _

theorem State.reg_loadedRegs (s : State) (x r : Reg) :
    ({ s with V := s.loadedRegs x } : State).reg r =
      if r ≤ x then s.mem.read (s.I.toNat + r.val) else s.reg r := by
  simp [State.reg, State.loadedRegs]

/-- The bytes loaded one by one make the register file of the whole load. -/
theorem State.setRegsFrom_bytesAt (s : State) (x : Reg) :
    s.setRegsFrom 0 (s.mem.bytesAt s.I.toNat (x.val + 1)) = { s with V := s.loadedRegs x } := by
  have hV : (s.setRegsFrom 0 (s.mem.bytesAt s.I.toNat (x.val + 1))).V = s.loadedRegs x := by
    refine State.V_ext (t := { s with V := s.loadedRegs x }) fun r => ?_
    rw [State.reg_setRegsFrom, State.reg_loadedRegs, if_pos (Nat.zero_le _), Nat.sub_zero]
    split
    case isTrue hr => exact Memory.getD_bytesAt _ _ (Nat.lt_succ_of_le hr)
    case isFalse hr => exact Memory.getD_bytesAt_past _ _ (Nat.lt_of_not_le hr)
  rw [State.setRegsFrom_eq_withV, hV]

/-! ### Execute is `raise` or `effect` -/

theorem State.keyAt_eq_keyDown (s : State) {k : Nat} (h : k < 16) :
    s.keyAt k = s.keyDown ⟨k, h⟩ := by
  simp [State.keyAt, State.keyDown, h]

/-- The push of CALL, its entry and counter written with no bound to prove. -/
theorem execCall_eq_effect (nnn : Addr12) (s : State) (h : s.sp.val < 16) :
    execCall nnn s = .next (effect s (.call nnn)) := by
  have hstack : s.stack.set s.sp.val s.pc h = s.stack.setIfInBounds s.sp.val s.pc := by
    apply Vector.ext
    intro k hk
    rw [Vector.getElem_set, Vector.getElem_setIfInBounds]
  have hsp : (⟨s.sp.val + 1, by omega⟩ : Fin 17) = s.sp + 1 :=
    Fin.ext (Fin.val_add_one_of_lt' (by omega)).symm
  rw [execCall_ok nnn s h, hstack, hsp]
  rfl

/-- Where the table of fatal conditions gives none, `effect` is the meaning: the instructions that
check something first by their closed forms, every other as it is defined. -/
theorem exec_eq_effect {s : State} {i : Instr} (h : faultOf s i = none) :
    exec i s = .next (effect s i) := by
  cases i with
  | ret => exact execRet_ok s (by simpa [faultOf, Nat.pos_iff_ne_zero] using h)
  | call nnn =>
    have hsp : s.sp.val ≠ 16 := by simpa [faultOf] using h
    exact execCall_eq_effect nnn s (by omega)
  | seImm | sneImm | seReg | sneReg => exact congrArg Host.Outcome.next (s.skipIf_eq_setPc _)
  | drw x y n => exact execDrw_ok x y n s (by simp [faultOf] at h; omega)
  | skp x =>
    have hk : (s.reg x).toNat ≤ 0x0F := by simpa [faultOf] using h
    rw [exec, execSkp_ok x s hk, ← s.keyAt_eq_keyDown, s.skipIf_eq_setPc]
    rfl
  | sknp x =>
    have hk : (s.reg x).toNat ≤ 0x0F := by simpa [faultOf] using h
    rw [exec, execSknp_ok x s hk, ← s.keyAt_eq_keyDown, s.skipIf_eq_setPc]
    rfl
  | ldVxK x => simp only [exec, execLdVxK, effect]; cases s.lowestKey <;> rfl
  | ldB x => exact execLdB_ok x s (by simpa [faultOf] using h)
  | storeRegs x => exact execStoreRegs_ok x s (by simpa [faultOf] using h)
  | loadRegs x =>
    rw [exec, execLoadRegs_ok x s (by simpa [faultOf] using h), s.setRegsFrom_bytesAt]
    rfl
  | _ => rfl

/-- A row of the table of fatal conditions: the condition holds and gives the cause. -/
theorem faultRow {p : Prop} [Decidable p] {c d : Fault}
    (h : (if p then some c else none) = some d) : p ∧ c = d := by
  simpa using h

/-- Where the table gives a cause, nothing but fault entry happens (R149, R151). -/
theorem exec_eq_raise {s : State} {i : Instr} {c : Fault} (h : faultOf s i = some c) :
    exec i s = .next (raise c s) := by
  cases i with
  | ret => obtain ⟨hsp, rfl⟩ := faultRow h; exact execRet_error s hsp
  | call nnn => obtain ⟨hsp, rfl⟩ := faultRow h; exact execCall_error nnn s hsp
  | drw x y n => obtain ⟨⟨hn, hI⟩, rfl⟩ := faultRow h; exact execDrw_error x y n s hn hI
  | ldB x => obtain ⟨hI, rfl⟩ := faultRow h; exact execLdB_error x s hI
  | storeRegs x => obtain ⟨hI, rfl⟩ := faultRow h; exact execStoreRegs_error x s hI
  | loadRegs x => obtain ⟨hI, rfl⟩ := faultRow h; exact execLoadRegs_error x s hI
  | skp x => obtain ⟨hk, rfl⟩ := faultRow h; exact execSkp_error x s hk
  | sknp x => obtain ⟨hk, rfl⟩ := faultRow h; exact execSknp_error x s hk
  | _ => cases h

/-- Everything execute can answer. -/
theorem exec_cases {i : Instr} {s t : State} (h : exec i s = .next t) :
    (∃ c, faultOf s i = some c ∧ t = raise c s) ∨ (faultOf s i = none ∧ t = effect s i) := by
  cases hf : faultOf s i with
  | some c =>
    rw [exec_eq_raise hf] at h
    cases h
    exact .inl ⟨c, rfl, rfl⟩
  | none =>
    rw [exec_eq_effect hf] at h
    cases h
    exact .inr ⟨rfl, rfl⟩

theorem eq_effect_of_exec {i : Instr} {s t : State} (hf : faultOf s i = none)
    (h : exec i s = .next t) : t = effect s i := by
  rw [exec_eq_effect hf] at h
  cases h
  rfl

/-! ### The halt latch and the record (R140, R149) -/

@[simp] theorem effect_halted (s : State) (i : Instr) : (effect s i).halted = s.halted := by
  cases i with
  | ldVxK x => simp only [effect]; cases s.lowestKey <;> rfl
  | loadRegs x => simp only [effect]
  | _ => rfl

@[simp] theorem effect_fault (s : State) (i : Instr) : (effect s i).fault = s.fault := by
  cases i with
  | ldVxK x => simp only [effect]; cases s.lowestKey <;> rfl
  | loadRegs x => simp only [effect]
  | _ => rfl

/-- Settles O36: the table decides between `raise` and an effect that leaves latch and record. -/
theorem fatalConditionsAreExactlyTheTables : Obligations.FatalConditionsAreExactlyTheTables :=
  fun i s => ⟨fun _ hc => exec_eq_raise hc,
    fun hf => ⟨effect s i, exec_eq_effect hf, effect_halted s i, effect_fault s i⟩⟩

/-! ### What an instruction leaves unchanged (R13 to R23) -/

theorem FrameBut.mono {fs gs : List Field} {s t : State} (h : FrameBut fs s t) (hsub : fs ⊆ gs) :
    FrameBut gs s t := fun f hf => h f fun hfs => hf (hsub hfs)

theorem frameBut_raise (c : Fault) (s : State) : FrameBut [.halted, .fault] s (raise c s) := by
  intro f hf
  cases f
  case halted | fault => simp at hf
  all_goals simp [SameField]

theorem frameBut_setMem (s : State) (m : Memory) : FrameBut [.mem] s { s with mem := m } := by
  intro f hf
  cases f
  case mem => simp at hf
  all_goals simp [SameField]

theorem frameBut_setDT (s : State) (b : Byte) : FrameBut [.DT] s { s with DT := b } := by
  intro f hf
  cases f
  case DT => simp at hf
  all_goals simp [SameField]

theorem frameBut_setST (s : State) (b : Byte) : FrameBut [.ST] s { s with ST := b } := by
  intro f hf
  cases f
  case ST => simp at hf
  all_goals simp [SameField]

theorem frameBut_setReport (s : State) (r : Option Report) :
    FrameBut [.report] s { s with report := r } := by
  intro f hf
  cases f
  case report => simp at hf
  all_goals simp [SameField]

theorem frameBut_nextDraw (s : State) : FrameBut [.draws] s s.nextDraw := by
  intro f hf
  cases f
  case draws => simp at hf
  all_goals simp [SameField]

theorem frameBut_setPcSp (s : State) (target : Word16) (sp : Fin 17) :
    FrameBut [.pc, .sp] s { s with pc := target, sp := sp } := by
  intro f hf
  cases f
  case pc | sp => simp at hf
  all_goals simp [SameField]

theorem frameBut_setStack (s : State) (k : Vector Word16 16) :
    FrameBut [.stack] s { s with stack := k } := by
  intro f hf
  cases f
  case stack => simp at hf
  all_goals simp [SameField]

/-- An instruction that meets no fatal condition writes its own fields only. -/
theorem frameBut_effect (s : State) (i : Instr) : FrameBut (mayWrite i) s (effect s i) := by
  cases i with
  | cls => exact frameBut_setDisp s _
  | ret => exact (frameBut_setPcSp s _ _).mono (by simp [mayWrite])
  | call nnn =>
    exact ((frameBut_setPcSp s (zextAddr nnn) (s.sp + 1)).trans (frameBut_setStack _ _)).mono
      (by simp [mayWrite])
  | jp | jpOff | seImm | sneImm | seReg | sneReg => exact frameBut_setPc s _
  | skp | sknp => exact (frameBut_setPc s _).mono (by simp [mayWrite])
  | rnd x nn =>
    exact ((frameBut_nextDraw s).trans (frameBut_setReg _ _ _)).mono (by simp [mayWrite])
  | ldI | ldF => exact frameBut_setI s _
  | addI x => exact (frameBut_setI s _).trans (frameBut_setFlag _ _)
  | drw x y n =>
    exact ((frameBut_setDisp s _).trans (frameBut_setFlag _ _)).mono (by simp [mayWrite])
  | loadRegs x => exact (frameBut_withV s _).mono (by simp [mayWrite])
  | ldVxK x =>
    simp only [effect]
    cases s.lowestKey with
    | some k => exact (frameBut_setReg s x _).mono (by simp [mayWrite])
    | none => exact (frameBut_setPc s _).mono (by simp [mayWrite])
  | ldDTVx x => exact frameBut_setDT s _
  | ldSTVx x => exact frameBut_setST s _
  | ldB | storeRegs => exact (frameBut_setMem s _).mono (by simp [mayWrite])
  | unknown w => exact frameBut_setReport s _
  | _ => exact frameBut_withV s _

/-- An instruction that can meet a fatal condition has latch and record among its fields. -/
theorem latch_subset_mayWrite {s : State} {i : Instr} {c : Fault} (h : faultOf s i = some c) :
    [.halted, .fault] ⊆ mayWrite i := by
  cases i with
  | ret | call | drw | ldB | storeRegs | loadRegs | skp | sknp => simp [mayWrite]
  | _ => cases h

/-- Settles O34: a fatal condition writes latch and record, any other outcome the fields of the
effect. -/
theorem fieldsAreWrittenOnlyByTheirInstructions :
    Obligations.FieldsAreWrittenOnlyByTheirInstructions := by
  intro i s t h
  obtain ⟨c, hc, rfl⟩ | ⟨-, rfl⟩ := exec_cases h
  · exact (frameBut_raise c s).mono (latch_subset_mayWrite hc)
  · exact frameBut_effect s i

/-! ### Registers and flags (R12) -/

theorem regsBut_loadedRegs (s : State) (x : Reg) :
    RegsBut ((List.finRange 16).filter (fun r => r ≤ x)) s { s with V := s.loadedRegs x } := by
  intro r hr
  have hrx : ¬ r ≤ x := by simpa using hr
  rw [State.reg_loadedRegs, if_neg hrx]

/-- The registers an instruction may write: its destinations, and VF as a flag. -/
def writtenRegs (i : Instr) : List Reg :=
  if setsFlag i then destRegs i ++ [Reg.flag] else destRegs i

/-- An instruction that meets no fatal condition writes its own registers only. -/
theorem regsBut_effect (s : State) (i : Instr) : RegsBut (writtenRegs i) s (effect s i) := by
  cases i with
  | addReg | sub | subn | shr | shl => exact regsBut_setRegFlag s _ _ _
  | addI x => exact regsBut_setFlag _ _
  | drw x y n => exact regsBut_setFlag _ _
  | loadRegs x => exact regsBut_loadedRegs s x
  | ldVxK x =>
    simp only [effect]
    cases s.lowestKey with
    | some k => exact regsBut_setReg s x _
    | none => exact fun _ _ => rfl
  | ldImm | addImm | ldReg | or | and | xor | ldVxDT => exact regsBut_setReg s _ _
  | rnd x nn => exact regsBut_setReg s.nextDraw x _
  | _ => exact fun _ _ => rfl

/-- Settles O32: `raise` writes no register, an effect its destinations and VF as a flag. -/
theorem registersChangeOnlyAsDestinationOrFlag :
    Obligations.RegistersChangeOnlyAsDestinationOrFlag := by
  intro i s t r h hdest hflag
  obtain ⟨c, -, rfl⟩ | ⟨-, rfl⟩ := exec_cases h
  · exact raise_reg c s r
  · refine regsBut_effect s i r ?_
    cases hs : setsFlag i with
    | false => simpa [writtenRegs, hs] using hdest
    | true =>
      have hne : r ≠ Reg.flag := fun e => by simp [hflag e] at hs
      simpa [writtenRegs, hs] using ⟨hdest, hne⟩

theorem flagByte_zero_or_one (b : Bool) : flagByte b = 0x00 ∨ flagByte b = 0x01 := by
  cases b <;> simp

theorem setFlag_flag_zero_or_one (s : State) (b : Bool) :
    (s.setFlag b).reg Reg.flag = 0x00 ∨ (s.setFlag b).reg Reg.flag = 0x01 := by
  rw [State.reg_setFlag_flag]
  exact flagByte_zero_or_one b

/-- Settles O33: every flag writer ends with `setFlag`. -/
theorem flagWritersLeaveZeroOrOne : Obligations.FlagWritersLeaveZeroOrOne := by
  intro i s t hset hf h
  rw [eq_effect_of_exec hf h]
  cases i with
  | addReg | sub | subn | shr | shl | drw | addI => exact setFlag_flag_zero_or_one _ _
  | _ => cases hset

/-! ### The program counter (R13) -/

theorem effect_pc_of_not_mem {s : State} {i : Instr} (h : Field.pc ∉ mayWrite i) :
    (effect s i).pc = s.pc := frameBut_effect s i .pc h

theorem zextByte_add_toNat (a b : Byte) : (zextByte a + zextByte b).toNat = a.toNat + b.toNat := by
  have ha : a.toNat < 256 := a.isLt
  have hb : b.toNat < 256 := b.isLt
  simp [zextByte]
  omega

theorem jumpOffTarget_toNat (x : Reg) (nn : Byte) (s : State) :
    (jumpOffTarget x nn s).toNat = nn.toNat + (s.reg x).toNat := zextByte_add_toNat nn (s.reg x)

/-- A skip either is taken or leaves `pc`. -/
theorem skipPc_iff (s : State) (p : Prop) {c : Bool} (h : c = true ↔ p) :
    (p ∧ s.skipPc c = s.pc + 2) ∨ (¬ p ∧ s.skipPc c = s.pc) := by
  cases c with
  | true => exact .inl ⟨h.mp rfl, rfl⟩
  | false => exact .inr ⟨fun hp => Bool.false_ne_true (h.mpr hp), rfl⟩

theorem skipPc_iff_not (s : State) (p : Prop) {c : Bool} (h : c = true ↔ ¬ p) :
    (¬ p ∧ s.skipPc c = s.pc + 2) ∨ (p ∧ s.skipPc c = s.pc) := by
  simpa only [not_not] using skipPc_iff s (¬ p) h

theorem keyAt_iff (s : State) (k : Nat) : s.keyAt k = true ↔ keyNumberDown s k := by
  constructor
  · intro h
    by_cases hk : k < 16
    · exact ⟨⟨k, hk⟩, rfl, s.keyAt_eq_keyDown hk ▸ h⟩
    · simp [State.keyAt, hk] at h
  · rintro ⟨j, rfl, hj⟩
    rwa [s.keyAt_eq_keyDown j.isLt]

/-- Settles O35: the effect's `pc` against the table, skips by whether they are taken, and a wait
by whether a key is found. -/
theorem pcMovesAsTabulated : Obligations.PcMovesAsTabulated := by
  intro i s t hf h
  rw [eq_effect_of_exec hf h]
  cases i with
  | jp nnn | call nnn => exact zextAddr_toNat nnn
  | ret =>
    intro k hk
    simp [effect, ← hk]
  | jpOff x nn => exact jumpOffTarget_toNat x nn s
  | seImm x nn | seReg x y _ => exact skipPc_iff s _ (by simp)
  | sneImm x nn | sneReg x y _ => exact skipPc_iff_not s _ (by simp)
  | skp x => exact skipPc_iff s _ (keyAt_iff s _)
  | sknp x => exact skipPc_iff_not s _ (by simp [← keyAt_iff])
  | ldVxK x =>
    simp only [PcAfter, effect]
    cases hk : s.lowestKey with
    | some k => exact .inl ⟨⟨k, (State.lowestKey_some hk).1⟩, rfl⟩
    | none => exact .inr ⟨State.lowestKey_none.mp hk, rfl⟩
  | _ => exact effect_pc_of_not_mem (by simp [mayWrite])

end Sys2Proof.Machine
end

section
/-! PROOFS. The instructions one by one: arithmetic with a flag and random (spec/42_alu.md), control
flow (spec/41_control_flow.md), index and memory (spec/43_index_memory.md, spec/20_memory.md), keys,
timers and the unknown opcode (spec/45_keys_timers.md, spec/40_cycle.md). -/

namespace Sys2Proof.Machine

/-! ### Subtraction (R97, R99) -/

theorem toNat_ofInt_sub (a b : Byte) :
    (BitVec.ofInt 8 (a.toNat - b.toNat)).toNat = (a.toNat + 256 - b.toNat) % 256 := by
  have hb : b.toNat < 256 := b.isLt
  rw [BitVec.toNat_ofInt]
  omega

theorem flagByte_noBorrow (minuend subtrahend : Byte) :
    flagByte (noBorrow minuend subtrahend) =
      if minuend.toNat > subtrahend.toNat then 0x01 else 0x00 := by
  simp only [flagByte, noBorrow, decide_eq_true_eq]

theorem exec_sub (x y : Reg) (s : State) :
    exec (.sub x y) s = .next (s.setRegFlag x
      (BitVec.ofInt 8 ((s.reg x).toNat - (s.reg y).toNat)) (noBorrow (s.reg x) (s.reg y))) := rfl

theorem exec_subn (x y : Reg) (s : State) :
    exec (.subn x y) s = .next (s.setRegFlag x
      (BitVec.ofInt 8 ((s.reg y).toNat - (s.reg x).toNat)) (noBorrow (s.reg y) (s.reg x))) := rfl

/-- Settles O5: result and flag are both taken from the operands as they were. -/
theorem subtractionsSetStrictFlag : Obligations.SubtractionsSetStrictFlag := by
  intro x y s hx
  constructor
  · obtain ⟨t, ht, hres, hflag, hregs, hframe⟩ := setRegFlag_writes_only (exec_sub x y s) hx
    exact ⟨t, ht, by rw [hres, toNat_ofInt_sub], by rw [hflag, flagByte_noBorrow], hregs, hframe⟩
  · obtain ⟨t, ht, hres, hflag, hregs, hframe⟩ := setRegFlag_writes_only (exec_subn x y s) hx
    exact ⟨t, ht, by rw [hres, toNat_ofInt_sub], by rw [hflag, flagByte_noBorrow], hregs, hframe⟩

/-! ### The destination VF (R108) -/

/-- With destination VF the result is overwritten by the flag. -/
theorem setRegFlag_flag_wins {i : Instr} {s : State} {b : Byte} {f : Bool}
    (h : exec i s = .next (s.setRegFlag Reg.flag b f)) :
    ∃ t, exec i s = .next t ∧ (t.reg Reg.flag).toNat = f.toNat ∧
      RegsBut [Reg.flag] s t ∧ FrameBut [.V] s t := by
  refine ⟨_, h, ?_, ?_, frameBut_setRegFlag s _ b f⟩
  · rw [State.reg_setRegFlag_flag, flagByte_toNat]
  · exact fun r hr => regsBut_setRegFlag s Reg.flag b f r (by simpa using hr)

theorem toNat_addCarry (a b : Byte) :
    (addCarry a b).toNat = if a.toNat + b.toNat > 255 then 1 else 0 := by
  rw [← flagByte_toNat, flagByte_addCarry, apply_ite BitVec.toNat]
  rfl

theorem toNat_noBorrow (a b : Byte) :
    (noBorrow a b).toNat = if a.toNat > b.toNat then 1 else 0 := by
  rw [← flagByte_toNat, flagByte_noBorrow, apply_ite BitVec.toNat]
  rfl

/-- Settles O7: the flag is written last. -/
theorem flagWinsWhenVFIsTheDestination : Obligations.FlagWinsWhenVFIsTheDestination := by
  intro y s
  refine ⟨?add, ?sub, ?subn, ?shr, ?shl⟩
  case add => simpa only [toNat_addCarry] using setRegFlag_flag_wins (exec_addReg Reg.flag y s)
  case sub => simpa only [toNat_noBorrow] using setRegFlag_flag_wins (exec_sub Reg.flag y s)
  case subn => simpa only [toNat_noBorrow] using setRegFlag_flag_wins (exec_subn Reg.flag y s)
  case shr => simpa only [toNat_shiftedOutLow] using setRegFlag_flag_wins (exec_shr Reg.flag y s)
  case shl => simpa only [toNat_shiftedOutHigh] using setRegFlag_flag_wins (exec_shl Reg.flag y s)

/-! ### RND (R101) -/

theorem exec_rnd (x : Reg) (nn : Byte) (s : State) :
    exec (.rnd x nn) s = .next (s.nextDraw.setReg x (Config.freeByte s.draws &&& nn)) := rfl

/-- Settles O8: a draw counted, and one register write of the byte drawn, masked. -/
theorem randomIsTheFreeByteMasked : Obligations.RandomIsTheFreeByteMasked := by
  intro x nn s
  refine ⟨_, exec_rnd x nn s, ?value, ?mask, rfl, ?regs, ?frame⟩
  case value => exact State.reg_setReg_same _ x _
  case mask =>
    intro k _ hk
    rw [State.reg_setReg_same, BitVec.getLsbD_and, Bool.and_eq_true] at hk
    exact hk.2
  case regs => exact regsBut_setReg s.nextDraw x _
  case frame => exact frameBut_effect s (.rnd x nn)

/-! ### JP Vx, nn (R87) -/

theorem exec_jpOff (x : Reg) (nn : Byte) (s : State) :
    exec (.jpOff x nn) s = .next { s with pc := jumpOffTarget x nn s } := rfl

/-- Settles O10: the sum of two bytes fits 16 bits. -/
theorem jumpWithOffsetAddsTwoBytes : Obligations.JumpWithOffsetAddsTwoBytes := by
  intro x nn s
  have hnn : nn.toNat < 256 := nn.isLt
  have hx : (s.reg x).toNat < 256 := (s.reg x).isLt
  refine ⟨_, exec_jpOff x nn s, jumpOffTarget_toNat x nn s, ?_, frameBut_setPc s _⟩
  show (jumpOffTarget x nn s).toNat ≤ 0x01FE
  rw [jumpOffTarget_toNat]
  omega

/-! ### Fatal conditions -/

theorem exec_faultsWith {s : State} {i : Instr} {c : Fault} (h : faultOf s i = some c) :
    ∃ t, exec i s = .next t ∧ FaultsWith c s t :=
  ⟨_, exec_eq_raise h, rfl, rfl, frameBut_raise c s⟩

/-! ### CALL and RET (R80, R82) -/

theorem exec_call {s : State} (nnn : Addr12) (h : s.sp.val < 16) :
    exec (.call nnn) s = .next (effect s (.call nnn)) := execCall_eq_effect nnn s h

theorem effect_call_sp {s : State} (nnn : Addr12) (h : s.sp.val < 16) :
    (effect s (.call nnn)).sp.val = s.sp.val + 1 := Fin.val_add_one_of_lt' (by omega)

theorem effect_call_stack (s : State) (nnn : Addr12) (k : Fin 16) :
    (effect s (.call nnn)).stack[k.val] = if k.val = s.sp.val then s.pc else s.stack[k.val] := by
  simp only [effect, Vector.getElem_setIfInBounds, eq_comm]

theorem exec_ret {s : State} (h : 0 < s.sp.val) : exec .ret s = .next (effect s .ret) :=
  execRet_ok s h

/-- RET pops the last live entry. -/
theorem effect_ret_pc (s : State) (k : Fin 16) (h : k.val + 1 = s.sp.val) :
    (effect s .ret).pc = s.stack[k.val] := by
  simp [effect, ← h]

theorem effect_ret_sp {s : State} (h : 0 < s.sp.val) : (effect s .ret).sp.val + 1 = s.sp.val :=
  Nat.sub_add_cancel h

/-- Settles O12: the push is a write of one entry, the counter and `pc`. -/
theorem callPushesOrOverflows : Obligations.CallPushesOrOverflows := by
  intro nnn s
  constructor
  · intro h
    exact ⟨_, exec_call nnn h, zextAddr_toNat nnn, effect_call_sp nnn h, effect_call_stack s nnn,
      (frameBut_setPcSp s (zextAddr nnn) (s.sp + 1)).trans (frameBut_setStack _ _)⟩
  · intro h
    exact exec_faultsWith (if_pos h)

/-- Settles O13: the pop is a write of the counter and `pc`. -/
theorem returnPopsOrUnderflows : Obligations.ReturnPopsOrUnderflows := by
  intro s
  constructor
  · intro h
    exact ⟨_, exec_ret h, effect_ret_sp h, effect_ret_pc s, frameBut_setPcSp s _ _⟩
  · intro h
    exact exec_faultsWith (if_pos h)

/-- Settles O14: the entry RET pops is the one CALL wrote, at the `sp` before the CALL. -/
theorem callThenReturnRoundTrips : Obligations.CallThenReturnRoundTrips := by
  intro nnn s t u hs hcall hsp hstack
  rw [exec_call nnn hs] at hcall
  cases hcall
  have hu : u.sp.val = s.sp.val + 1 := hsp ▸ effect_call_sp nnn hs
  have hpos : 0 < u.sp.val := by omega
  refine ⟨_, exec_ret hpos, ?pc, ?sp⟩
  case pc =>
    rw [effect_ret_pc u ⟨s.sp.val, hs⟩ hu.symm, hstack]
    exact (effect_call_stack s nnn ⟨s.sp.val, hs⟩).trans (if_pos rfl)
  case sp =>
    have hret := effect_ret_sp hpos
    exact Fin.ext (by omega)

/-! ### LD F (R112) -/

theorem exec_ldF (x : Reg) (s : State) :
    exec (.ldF x) s = .next { s with I := glyphAddr (digitOf (s.reg x)) } := rfl

theorem glyphAddr_toNat {d : Nat} (h : d < 16) : (glyphAddr d).toNat = 0x050 + 5 * d := by
  simp only [glyphAddr, Config.fontBase, BitVec.toNat_ofNat]
  omega

/-- Settles O17: a digit is below 16, so the glyph's address fits. -/
theorem fontAddressOfTheLowNibble : Obligations.FontAddressOfTheLowNibble := by
  intro x s
  exact ⟨_, exec_ldF x s, glyphAddr_toNat (Nat.mod_lt _ (by decide)), frameBut_setI s _⟩

/-! ### Memory primitives (R44) -/

theorem State.memRead_of_le (s : State) {a : Nat} (h : a ≤ 0xFFF) :
    s.memRead a = .ok (s.mem.read a) := if_pos h

theorem State.memRead_of_gt (s : State) {a : Nat} (h : a > 0xFFF) :
    s.memRead a = .error .dataAccessOutOfBounds := if_neg (by omega)

/-- Settles O22: the array's read after write, inside the bound that both primitives test. -/
theorem memoryPrimitives : Obligations.MemoryPrimitives := by
  intro a v s hwf
  constructor
  · intro ha
    refine ⟨{ s with mem := s.mem.write a v }, if_pos ha, ?same, ?others, frameBut_setMem s _⟩
    case same => rw [State.memRead_of_le _ ha, Memory.read_write_same a v hwf]
    case others =>
      intro c hc
      simp only [State.memRead, Memory.read_write_other _ _ _ _ hc]
  · intro ha
    exact ⟨if_neg (by omega), s.memRead_of_gt ha⟩

/-! ### Stores and loads at `I` (R113 to R115) -/

theorem bytesBut_writeList (s : State) (a : Nat) (bs : List Byte) :
    BytesBut a bs.length s { s with mem := s.mem.writeList a bs } :=
  fun c hc => Memory.read_writeList_outside s.mem a c bs hc

theorem exec_ldB {x : Reg} {s : State} (h : s.I.toNat + 2 ≤ 0xFFF) :
    exec (.ldB x) s =
      .next { s with mem := s.mem.writeList s.I.toNat (decimalDigits (s.reg x)) } :=
  execLdB_ok x s h

theorem exec_storeRegs {x : Reg} {s : State} (h : s.I.toNat + x.val ≤ 0xFFF) :
    exec (.storeRegs x) s =
      .next { s with mem := s.mem.writeList s.I.toNat (s.regsUpTo x) } :=
  execStoreRegs_ok x s h

theorem exec_loadRegs {x : Reg} {s : State} (h : s.I.toNat + x.val ≤ 0xFFF) :
    exec (.loadRegs x) s = .next { s with V := s.loadedRegs x } :=
  exec_eq_effect (if_neg (by omega))

/-- The three digits read back from memory. -/
theorem read_writeList_decimalDigits {m : Memory} {a : Nat} (v : Byte) (ha : a + 2 ≤ 0xFFF)
    (hwf : m.wf = true) :
    ((m.writeList a (decimalDigits v)).read a).toNat = v.toNat / 100 ∧
    ((m.writeList a (decimalDigits v)).read (a + 1)).toNat = v.toNat / 10 % 10 ∧
    ((m.writeList a (decimalDigits v)).read (a + 2)).toNat = v.toNat % 10 := by
  have hv : v.toNat < 256 := v.isLt
  have hread : ∀ k (hk : k < 3),
      (m.writeList a (decimalDigits v)).read (a + k) = (decimalDigits v)[k] := fun k hk =>
    Memory.read_writeList_inside _ (by simp [Config.memSize]; omega) hwf hk
  have hdigit : ∀ d, d < 256 → (BitVec.ofNat 8 d).toNat = d := fun d hd =>
    (BitVec.toNat_ofNat ..).trans (Nat.mod_eq_of_lt hd)
  exact ⟨(congrArg BitVec.toNat (hread 0 (by decide))).trans (hdigit _ (by omega)),
    (congrArg BitVec.toNat (hread 1 (by decide))).trans (hdigit _ (by omega)),
    (congrArg BitVec.toNat (hread 2 (by decide))).trans (hdigit _ (by omega))⟩

/-- Settles O18: the store writes the list of the three digits. -/
theorem decimalDigitsAreStored : Obligations.DecimalDigitsAreStored := by
  intro x s hwf
  constructor
  · intro hI
    obtain ⟨hundreds, tens, ones⟩ := read_writeList_decimalDigits (s.reg x) hI hwf
    exact ⟨_, exec_ldB hI, hundreds, tens, ones, by rw [hundreds, tens, ones]; omega,
      bytesBut_writeList s _ (decimalDigits (s.reg x)), frameBut_setMem s _⟩
  · intro hI
    exact exec_faultsWith (if_pos hI)

theorem read_writeList_regsUpTo {s : State} {x k : Reg} (hwf : s.mem.wf = true)
    (hI : s.I.toNat + x.val ≤ 0xFFF) (hk : k ≤ x) :
    (s.mem.writeList s.I.toNat (s.regsUpTo x)).read (s.I.toNat + k.val) = s.reg k := by
  have hlen : k.val < (s.regsUpTo x).length := by
    rw [State.length_regsUpTo]
    exact Nat.lt_succ_of_le hk
  rw [Memory.read_writeList_inside _ (by simp [Config.memSize]; omega) hwf hlen,
    State.getElem_regsUpTo]

/-- What a store that completes leaves in memory, and that it writes no other field. -/
theorem storeRegs_stores {x : Reg} {s t : State} (hwf : s.mem.wf = true)
    (hI : s.I.toNat + x.val ≤ 0xFFF) (h : exec (.storeRegs x) s = .next t) :
    (∀ k : Reg, k ≤ x → t.mem.read (s.I.toNat + k.val) = s.reg k) ∧ FrameBut [.mem] s t := by
  rw [exec_storeRegs hI] at h
  cases h
  exact ⟨fun k hk => read_writeList_regsUpTo hwf hI hk, frameBut_setMem s _⟩

/-- Settles O19: the store writes the list of the registers up to `x`. -/
theorem registersAreStored : Obligations.RegistersAreStored := by
  intro x s hwf
  constructor
  · intro hI
    obtain ⟨hread, hframe⟩ := storeRegs_stores hwf hI (exec_storeRegs hI)
    refine ⟨_, exec_storeRegs hI, hread, ?_, hframe⟩
    have hbytes := bytesBut_writeList s s.I.toNat (s.regsUpTo x)
    rwa [State.length_regsUpTo] at hbytes
  · intro hI
    exact exec_faultsWith (if_pos hI)

/-- Settles O20: register by register, the load is `loadedRegs`. -/
theorem registersAreLoaded : Obligations.RegistersAreLoaded := by
  intro x s
  constructor
  · intro hI
    exact ⟨_, exec_loadRegs hI, fun k hk => (s.reg_loadedRegs x k).trans (if_pos hk),
      fun k hk => (s.reg_loadedRegs x k).trans (if_neg (not_le_of_gt hk)), frameBut_withV s _⟩
  · intro hI
    exact exec_faultsWith (if_pos hI)

/-- Settles O21: the load reads, at the same `I`, the bytes the store wrote. -/
theorem storeThenLoadRestoresRegisters : Obligations.StoreThenLoadRestoresRegisters := by
  intro x s t u hwf hI hstore hu
  obtain ⟨hread, hframe⟩ := storeRegs_stores hwf hI hstore
  have huI : u.I = s.I := (hframe .I (by simp)).trans (hu .I (by simp))
  have humem : ∀ a, u.mem.read a = t.mem.read a := hu .mem (by simp)
  obtain ⟨v, hv, hload, -⟩ := (registersAreLoaded x u).1 (huI ▸ hI)
  refine ⟨v, hv, fun k hk => ?_⟩
  rw [hload k hk, huI, humem, hread k hk]

/-- Settles O23: the fetch reads the bytes of `V0` and `V1` where the store put them. -/
theorem storeIsSeenByTheNextFetch : Obligations.StoreIsSeenByTheNextFetch := by
  intro x s t hwf hx hIpc hpc hstore
  obtain ⟨hread, hframe⟩ := storeRegs_stores hwf (hIpc ▸ hpc) hstore
  have htpc : t.pc = s.pc := hframe .pc (by simp)
  have h0 : t.mem.read t.pc.toNat = s.reg 0 := by
    rw [htpc, ← hIpc]
    exact hread 0 (Fin.zero_le x)
  have h1 : t.mem.read (t.pc.toNat + 1) = s.reg 1 := by
    rw [htpc, ← hIpc]
    exact hread 1 hx
  refine ⟨_, fetch_ok t (by rw [htpc]; omega), ?word, ?pc⟩
  case word => rw [h0, h1]
  case pc => rw [htpc]

/-! ### SKP and SKNP (R130, R131) -/

theorem exec_skp {x : Reg} {s : State} {k : Fin 16} (h : (s.reg x).toNat = k.val) :
    exec (.skp x) s = .next (s.skipIf (decide (s.key[k.val] = true))) := by
  rw [exec, execSkp_ok x s (by omega), State.keyDown, Bool.decide_eq_true]
  simp only [h]

theorem exec_sknp {x : Reg} {s : State} {k : Fin 16} (h : (s.reg x).toNat = k.val) :
    exec (.sknp x) s = .next (s.skipIf (decide (¬ s.key[k.val] = true))) := by
  rw [exec, execSknp_ok x s (by omega), State.keyDown, decide_not, Bool.decide_eq_true]
  simp only [h]

/-- Settles O28: a skip on the named key, SKNP's on its negation; a greater number is fatal. -/
theorem keySkipsReadTheNamedKey : Obligations.KeySkipsReadTheNamedKey := by
  intro x s
  exact ⟨fun k hk => ⟨skip_advances_iff (exec_skp hk), skip_advances_iff_not (exec_sknp hk)⟩,
    fun hx => ⟨exec_faultsWith (if_pos hx), exec_faultsWith (if_pos hx)⟩⟩

/-! ### LD Vx, K (R133) -/

theorem State.lowestKey_eq_some {s : State} {k : Fin 16} (hk : s.keyDown k = true)
    (hlow : ∀ j, j < k → s.keyDown j = false) : s.lowestKey = some k := by
  cases h : s.lowestKey with
  | none => exact absurd (State.lowestKey_none.mp h k) (by simp [hk])
  | some j =>
    obtain ⟨hj, hjlow⟩ := State.lowestKey_some h
    have hjk : ¬ j < k := fun hlt => by simp [hlow j hlt] at hj
    have hkj : ¬ k < j := fun hlt => by simp [hjlow k hlt] at hk
    rw [le_antisymm (not_lt.mp hkj) (not_lt.mp hjk)]

theorem exec_ldVxK_some {x : Reg} {s : State} {k : Fin 16} (h : s.lowestKey = some k) :
    exec (.ldVxK x) s = .next (s.setReg x (BitVec.ofNat 8 k.val)) := by
  rw [exec, execLdVxK, h]

theorem exec_ldVxK_none {x : Reg} {s : State} (h : s.lowestKey = none) :
    exec (.ldVxK x) s = .next { s with pc := s.pc - 2 } := by
  rw [exec, execLdVxK, h]

/-- Settles O29: the least key is the one `lowestKey` finds, and its number fits a byte. -/
theorem awaitKeyTakesTheLeastKeyOrRewinds : Obligations.AwaitKeyTakesTheLeastKeyOrRewinds := by
  intro x s
  constructor
  · intro k hk hlow
    obtain ⟨t, ht, hx, hregs, hframe⟩ :=
      setReg_writes_only (exec_ldVxK_some (x := x) (State.lowestKey_eq_some hk hlow))
    refine ⟨t, ht, ?_, hregs, hframe⟩
    rw [hx, BitVec.toNat_ofNat]
    omega
  · intro hnone
    exact ⟨_, exec_ldVxK_none (State.lowestKey_none.mpr hnone), rfl, frameBut_setPc s _⟩

/-! ### Timers and the unknown opcode (R74, R132, R134, R135) -/

theorem exec_ldVxDT (x : Reg) (s : State) : exec (.ldVxDT x) s = .next (s.setReg x s.DT) := rfl

theorem exec_ldDTVx (x : Reg) (s : State) :
    exec (.ldDTVx x) s = .next { s with DT := s.reg x } := rfl

theorem exec_ldSTVx (x : Reg) (s : State) :
    exec (.ldSTVx x) s = .next { s with ST := s.reg x } := rfl

theorem exec_unknown (w : Word16) (s : State) :
    exec (.unknown w) s = .next { s with report := some ⟨s.pc, s.opcode⟩ } := rfl

/-- Settles O30: a register write of DT, and writes of each timer alone. -/
theorem timerMovesCopyAByte : Obligations.TimerMovesCopyAByte := by
  intro x s
  exact ⟨setReg_writes_only (exec_ldVxDT x s), ⟨_, exec_ldDTVx x s, rfl, frameBut_setDT s _⟩,
    ⟨_, exec_ldSTVx x s, rfl, frameBut_setST s _⟩⟩

/-- Settles O31: the handler is a write of the report alone. -/
theorem unknownOpcodeOnlyReports : Obligations.UnknownOpcodeOnlyReports := by
  intro w s
  exact ⟨_, exec_unknown w s, rfl, frameBut_setReport s _⟩

end Sys2Proof.Machine
end

section
/-! PROOFS. The cycle (spec/40_cycle.md R70 to R77): the four outcomes of a step, and what is read
off them about halting, faults, timers, skips and waits. -/

namespace Sys2Proof.Machine

/-! ### The stages in the terms of the claims -/

theorem fetch_beginCycle {s : State} (h : s.pc.toNat ≤ 0x0FFE) :
    fetch (beginCycle s) = .ok s.fetched := fetch_ok (beginCycle s) h

theorem frameBut_latched (s : State) (w : Word16) :
    FrameBut [.report, .opcode] s { s with report := none, opcode := w } := by
  intro f hf
  cases f
  case report | opcode => simp at hf
  all_goals simp [SameField]

theorem frameBut_fetched (s : State) : FrameBut [.report, .opcode, .pc] s s.fetched :=
  (frameBut_latched s s.wordAtPc).trans (frameBut_setPc _ (s.pc + 2))

theorem frameBut_beginCycle (s : State) : FrameBut [.report] s (beginCycle s) :=
  frameBut_setReport s none

theorem frameBut_tick (s : State) : FrameBut [.DT, .ST] s (tick s) :=
  (frameBut_setDT s (tickTimer s.DT)).trans (frameBut_setST _ (tickTimer s.ST))

@[simp] theorem State.fetched_halted (s : State) : s.fetched.halted = s.halted := rfl

theorem fetched_pc_toNat {s : State} (h : s.pc.toNat ≤ 0x0FFE) :
    s.fetched.pc.toNat = s.pc.toNat + 2 := by
  show (s.pc + 2).toNat = s.pc.toNat + 2
  bv_omega

theorem skipPc_toNat {s : State} (h : s.pc.toNat ≤ 0x1000) (c : Bool) :
    (s.skipPc c).toNat = s.pc.toNat + if c then 2 else 0 := by
  cases c with
  | true =>
    show (s.pc + 2).toNat = s.pc.toNat + 2
    bv_omega
  | false => rfl

/-! ### The outcomes of a step -/

/-- What a step can be: a halted core stays (R77), a fetch past memory faults (R141), the
instruction fetched meets a fatal condition (R149), or it is completed and the timers tick (R75). -/
inductive StepOutcome (s : State) : State → Prop
  | halted (hh : s.halted = true) : StepOutcome s s
  | fetchFault (hr : s.halted = false) (hpc : 0x0FFE < s.pc.toNat) :
      StepOutcome s (raise .fetchOutOfBounds (beginCycle s))
  | fault (c : Fault) (hr : s.halted = false) (hpc : s.pc.toNat ≤ 0x0FFE)
      (hc : faultOf s.fetched (decodeWord s.wordAtPc) = some c) :
      StepOutcome s (raise c s.fetched)
  | done (hr : s.halted = false) (hpc : s.pc.toNat ≤ 0x0FFE)
      (hf : faultOf s.fetched (decodeWord s.wordAtPc) = none) :
      StepOutcome s (tick (effect s.fetched (decodeWord s.wordAtPc)))

/-- A cycle whose fetch succeeds executes the word at `pc` on the fetched state and ends. -/
theorem step_of_exec {s t : State} (hr : s.halted = false) (hpc : s.pc.toNat ≤ 0x0FFE)
    (h : exec (decodeWord s.wordAtPc) s.fetched = .next t) :
    step s = .next (if t.halted then t else tick t) := by
  have hexec : exec (decodeWord s.fetched.opcode) s.fetched = .next t := h
  simp only [step, hr, Bool.false_eq_true, if_false, runCycle, fetch_beginCycle hpc, hexec,
    endCycle_next]

theorem StepOutcome.step_eq {s t : State} (h : StepOutcome s t) : step s = .next t := by
  cases h with
  | halted hh => simp [step, hh]
  | fetchFault hr hpc => simp [step, hr, runCycle, fetch_error (beginCycle s) hpc]
  | fault c hr hpc hc => exact step_of_exec hr hpc (exec_eq_raise hc)
  | done hr hpc hf =>
    rw [step_of_exec hr hpc (exec_eq_effect hf), effect_halted, State.fetched_halted, hr]
    rfl

theorem exists_stepOutcome (s : State) : ∃ t, StepOutcome s t := by
  cases hh : s.halted with
  | true => exact ⟨_, .halted hh⟩
  | false =>
    by_cases hpc : s.pc.toNat ≤ 0x0FFE
    · cases hf : faultOf s.fetched (decodeWord s.wordAtPc) with
      | some c => exact ⟨_, .fault c hh hpc hf⟩
      | none => exact ⟨_, .done hh hpc hf⟩
    · exact ⟨_, .fetchFault hh (Nat.lt_of_not_le hpc)⟩

theorem stepOutcome_of_step {s t : State} (h : step s = .next t) : StepOutcome s t := by
  obtain ⟨u, hu⟩ := exists_stepOutcome s
  rw [hu.step_eq] at h
  cases h
  exact hu

/-- Settles O41: some outcome always applies. -/
theorem everyStepHasANextState : Obligations.EveryStepHasANextState := by
  intro s
  obtain ⟨t, ht⟩ := exists_stepOutcome s
  exact ⟨t, ht.step_eq⟩

/-- Settles O37: the two bytes make the word that the cycle decodes. -/
theorem stepRunsTheDecodedInstruction : Obligations.StepRunsTheDecodedInstruction := by
  intro s t i rest hr hpc hdec hexec
  obtain ⟨rfl, -⟩ : decodeWord s.wordAtPc = i ∧ [] = rest := by
    simpa [decode, State.wordAtPc] using hdec
  exact step_of_exec hr hpc hexec

/-! ### Halting (R77, R141, R149) -/

theorem step_of_halted {s : State} (h : s.halted = true) : step s = .next s :=
  (StepOutcome.halted h).step_eq

theorem run_succ_of_step {M : Host.Core} {s t : M.State} (n : Nat) (h : M.step s = .next t) :
    M.run (n + 1) s = M.run n t := by
  rw [Host.Core.run, h]

/-- Settles O39: by induction on the number of steps. -/
theorem haltedCoreNeverChanges : Obligations.HaltedCoreNeverChanges := by
  intro n s h
  induction n with
  | zero => rfl
  | succ n ih => exact (run_succ_of_step (M := Sys2Proof.core) n (step_of_halted h)).trans ih

/-- Settles O38: nothing of the cycle happened but the clearing of the report. -/
theorem fetchPastMemoryHalts : Obligations.FetchPastMemoryHalts := by
  intro s hr hpc
  exact ⟨_, (StepOutcome.fetchFault hr hpc).step_eq, rfl, rfl, rfl,
    ((frameBut_beginCycle s).trans (frameBut_raise _ _)).mono (by simp)⟩

theorem faultOf_ne_fetchOutOfBounds {s : State} {i : Instr} {c : Fault}
    (h : faultOf s i = some c) : c ≠ .fetchOutOfBounds := by
  cases i with
  | ret | call | drw | ldB | storeRegs | loadRegs | skp | sknp =>
    obtain ⟨-, rfl⟩ := faultRow h
    decide
  | _ => cases h

/-- Settles O40: of the four outcomes, two halt a running core. -/
theorem faultsArePrecise : Obligations.FaultsArePrecise := by
  intro s t hr h ht
  cases stepOutcome_of_step h with
  | halted hh => simp [hr] at hh
  | fetchFault _ hpc =>
    exact ⟨((frameBut_beginCycle s).trans (frameBut_raise _ _)).mono (by simp), rfl,
      .inl ⟨hpc, rfl, rfl, rfl⟩⟩
  | fault c _ hpc hc =>
    exact ⟨((frameBut_fetched s).trans (frameBut_raise _ _)).mono (by simp), rfl,
      .inr ⟨hpc, rfl, rfl, c, faultOf_ne_fetchOutOfBounds hc, rfl⟩⟩
  | done =>
    rw [tick_halted, effect_halted, State.fetched_halted, hr] at ht
    cases ht

/-! ### Timers (R75) -/

/-- Settles O42: the tick comes after the effect, which writes a timer under its own load only. -/
theorem timersCountExecutedInstructions : Obligations.TimersCountExecutedInstructions := by
  intro s t hr h ht
  cases stepOutcome_of_step h with
  | halted hh => simp [hr] at hh
  | fetchFault => cases ht
  | fault => cases ht
  | done =>
    rw [tick_DT, tick_ST, tickTimer_toNat, tickTimer_toNat]
    have hframe := frameBut_effect s.fetched (decodeWord s.wordAtPc)
    generalize decodeWord s.wordAtPc = i at *
    have hDT (hi : Field.DT ∉ mayWrite i) : (effect s.fetched i).DT = s.DT := hframe .DT hi
    have hST (hi : Field.ST ∉ mayWrite i) : (effect s.fetched i).ST = s.ST := hframe .ST hi
    cases i with
    | ldDTVx x => exact ⟨rfl, by rw [hST (by simp [mayWrite])]⟩
    | ldSTVx x => exact ⟨by rw [hDT (by simp [mayWrite])], rfl⟩
    | _ => exact ⟨by rw [hDT (by simp [mayWrite])], by rw [hST (by simp [mayWrite])]⟩

/-! ### Cycles of one instruction -/

section
variable {s : State} {i : Instr} (hr : s.halted = false) (hpc : s.pc.toNat ≤ 0x0FFE)
  (hword : s.wordAtPc = encode i)
include hr hpc hword

/-- A cycle whose word is that of a well-formed instruction `i`. -/
theorem step_of_word (hwf : i.wf = true) (hf : faultOf s.fetched i = none) :
    step s = .next (tick (effect s.fetched i)) := by
  have hdec : decodeWord s.wordAtPc = i := by rw [hword, decodeWord_encode hwf]
  subst hdec
  exact (StepOutcome.done hr hpc hf).step_eq

/-- A cycle of a skip on `p`. -/
theorem step_of_skip {p : Prop} [Decidable p] (hwf : i.wf = true) (hf : faultOf s.fetched i = none)
    (heff : (effect s.fetched i).pc = s.fetched.skipPc (decide p)) :
    ∃ t, step s = .next t ∧ t.halted = false ∧ t.pc.toNat = s.pc.toNat + if p then 4 else 2 := by
  refine ⟨_, step_of_word hr hpc hword hwf hf, ?halted, ?pc⟩
  case halted => rw [tick_halted, effect_halted, State.fetched_halted, hr]
  case pc =>
    have hfetched := fetched_pc_toNat hpc
    rw [tick_pc, heff, skipPc_toNat (by omega), hfetched]
    by_cases hp : p <;> simp [hp]

/-- A cycle of a skip on the negation of `p`. -/
theorem step_of_skip_not {p : Prop} [Decidable p] (hwf : i.wf = true)
    (hf : faultOf s.fetched i = none)
    (heff : (effect s.fetched i).pc = s.fetched.skipPc (decide (¬ p))) :
    ∃ t, step s = .next t ∧ t.halted = false ∧ t.pc.toNat = s.pc.toNat + if p then 2 else 4 := by
  simpa only [ite_not] using step_of_skip hr hpc hword hwf hf heff

/-- A cycle whose instruction only puts `pc` back to itself: the timers tick. -/
theorem step_of_wait (hwf : i.wf = true) (hf : faultOf s.fetched i = none)
    (heff : effect s.fetched i = { s.fetched with pc := s.pc }) :
    ∃ t, step s = .next t ∧ t.DT.toNat = s.DT.toNat - 1 ∧ t.ST.toNat = s.ST.toNat - 1 ∧
      FrameBut [.DT, .ST, .opcode, .report] s t := by
  refine ⟨_, step_of_word hr hpc hword hwf hf, ?DT, ?ST, ?frame⟩
  case DT =>
    rw [tick_DT, tickTimer_toNat, heff]
    rfl
  case ST =>
    rw [tick_ST, tickTimer_toNat, heff]
    rfl
  case frame =>
    rw [heff]
    exact ((frameBut_latched s s.wordAtPc).trans (frameBut_tick _)).mono (by simp)

end

/-- Settles O43: the four register skips, the SNE forms on the negated comparison. -/
theorem skipCyclesAdvanceFourOrTwo : Obligations.SkipCyclesAdvanceFourOrTwo := by
  intro x y nn ignored s hr hpc
  exact ⟨fun hword => step_of_skip hr hpc hword rfl rfl rfl,
    fun hword => step_of_skip_not hr hpc hword rfl rfl rfl,
    fun hword => step_of_skip hr hpc hword rfl rfl rfl,
    fun hword => step_of_skip_not hr hpc hword rfl rfl rfl⟩

/-- Settles O44: the jump's target is the `pc` before the fetch. -/
theorem selfJumpOnlyTicks : Obligations.SelfJumpOnlyTicks := by
  intro nnn s hr hpc hword hself
  have htarget : zextAddr nnn = s.pc := BitVec.eq_of_toNat_eq ((zextAddr_toNat nnn).trans hself)
  refine step_of_wait hr hpc hword rfl rfl ?_
  rw [effect, htarget]

/-- Settles O45: with no key down the effect takes back the fetch's advance. -/
theorem awaitKeyWaitsByReExecution : Obligations.AwaitKeyWaitsByReExecution := by
  intro x s hr hpc hword hkeys
  have hnone : s.fetched.lowestKey = none := State.lowestKey_none.mpr hkeys
  have hback : s.fetched.pc - 2 = s.pc := BitVec.add_sub_cancel s.pc 2
  refine step_of_wait hr hpc hword rfl rfl ?_
  rw [effect, hnone, State.awaited, ← hback]

end Sys2Proof.Machine
end

section
/-! PROOFS. The host's side (spec/70_reset_and_hazards.md, spec/60_exceptions.md section 10): reset,
program load and the order of the host's moves. -/

namespace Sys2Proof.Machine

/-! ### Reset (R25, R170) -/

theorem font_length : Config.font.length = 80 := rfl

theorem unlisted_font (k : Nat) : Memory.unlisted (0x050 + k) = Config.font.getD k 0 := by
  simp [Memory.unlisted, Config.fontBase]

theorem unlisted_outside_font {a : Nat} (h : a < 0x050 ∨ 0x0A0 ≤ a) : Memory.unlisted a = 0 := by
  rw [Memory.unlisted, Config.fontBase]
  split
  · exact List.getD_eq_default _ _ (by rw [font_length]; omega)
  · rfl

/-- Settles O52: field by field, and memory as the reset image of R25. -/
theorem resetLeavesTheTabulatedValues : Obligations.ResetLeavesTheTabulatedValues := by
  intro s
  refine ⟨rfl, rfl, rfl, ?regs, ?stack, ?keys, rfl, rfl, Frame.pixel_blank, rfl, rfl,
    fun k _ => unlisted_font k, fun a ha => unlisted_outside_font ha, font_length, rfl⟩
  case regs => exact fun r => Vector.getElem_replicate ..
  case stack => exact fun k => Vector.getElem_replicate ..
  case keys => exact fun k => Vector.getElem_replicate ..

/-! ### Program load (R172) -/

theorem State.load_ok (s : State) {rom : List Byte} (h : rom.length ≤ 3584) :
    s.load rom = .ok { s with mem := s.mem.writeList 0x200 rom } :=
  if_neg (Nat.not_lt_of_le h)

theorem State.load_error (s : State) {rom : List Byte} (h : rom.length > 3584) :
    s.load rom = .error .tooLarge := if_pos h

/-- A load that succeeds is the copy of a short enough image. -/
theorem State.load_cases {s t : State} {rom : List Byte} (h : s.load rom = .ok t) :
    rom.length ≤ 3584 ∧ t = { s with mem := s.mem.writeList 0x200 rom } := by
  by_cases hlen : rom.length ≤ 3584
  · rw [s.load_ok hlen] at h
    cases h
    exact ⟨hlen, rfl⟩
  · rw [s.load_error (Nat.lt_of_not_le hlen)] at h
    cases h

/-- Settles O53: the image is one list of bytes written at `0x200`, up to the end of memory. -/
theorem loadCopiesTheImageOrRefusesIt : Obligations.LoadCopiesTheImageOrRefusesIt := by
  intro rom s hwf
  refine ⟨fun hlen => ⟨_, s.load_ok hlen, ?image, bytesBut_writeList s _ _, frameBut_setMem s _⟩,
    s.load_error⟩
  case image =>
    intro k hk
    rw [List.getD_eq_getElem _ _ hk]
    exact Memory.read_writeList_inside rom (by simp only [Config.memSize]; omega) hwf hk

/-! ### The host's moves (R158, R173) -/

theorem Session.load_of_ok {h : Session} {source : Option (List Byte)} {t : State}
    (hs : h.stage = .atReset) (hl : h.core.loadFrom source = .ok t) :
    h.move (.load source) = some ⟨t, .loaded⟩ := by
  simp only [Session.move, Session.load, hs, hl]

theorem Session.load_of_error {h : Session} {source : Option (List Byte)} {e : LoadError}
    (hs : h.stage = .atReset) (hl : h.core.loadFrom source = .error e) :
    h.move (.load source) = some ⟨h.core, .loadRefused⟩ := by
  simp only [Session.move, Session.load, hs, hl]

theorem Session.step_iff {h k : Session} :
    h.move .step = some k ↔
      h.stage = .loaded ∧ k.stage = .loaded ∧ Machine.step h.core = .next k.core := by
  constructor
  · intro hk
    obtain ⟨hs, t, ht, rfl⟩ := Session.step_cases hk
    exact ⟨hs, rfl, ht⟩
  · obtain ⟨t, stage⟩ := k
    rintro ⟨hs, rfl, ht⟩
    simp only [Session.move, Session.step, hs, ht]

theorem FrameBut.refl (s : State) (fs : List Field) : FrameBut fs s s := by
  intro f _
  cases f <;> simp [SameField]

theorem frameBut_setKeys (s : State) (keys : Vector Bool 16) :
    FrameBut [.key] s (s.setKeys keys) := by
  intro f hf
  cases f
  case key => simp at hf
  all_goals simp [SameField, State.setKeys]

theorem frameBut_hostReset (s : State) : FrameBut [.draws] State.reset s.hostReset := by
  intro f hf
  cases f
  case draws => simp at hf
  all_goals simp [SameField, State.hostReset]

/-- A core that has not been loaded is the reset state but for keys and draws: by induction on the
moves, of which only reset and the key latch lead to or keep such a session. -/
theorem frameBut_reset_of_not_loaded {h : Session} (hreach : Reachable h)
    (hs : h.stage ≠ .loaded) : FrameBut [.key, .draws] State.reset h.core := by
  induction hreach with
  | start => exact FrameBut.refl State.reset _
  | @move h k m _ hmove ih =>
    obtain ⟨-, rfl⟩ | ⟨keys, -, rfl⟩ | ⟨source, -, hreset, hload⟩ | ⟨-, -, t, -, rfl⟩ :=
      Session.move_cases hmove
    · exact (frameBut_hostReset h.core).mono (by simp)
    · exact ((ih hs).trans (frameBut_setKeys h.core keys)).mono (by simp)
    · obtain ⟨rom, t, -, -, rfl⟩ | rfl := hload
      · exact absurd rfl hs
      · exact ih (by simp [hreset])
    · exact absurd rfl hs

/-- Settles O60: clause by clause, from what each move of the host can be. -/
theorem hostLoadsOnceBeforeTheFirstStep : Obligations.HostLoadsOnceBeforeTheFirstStep := by
  refine ⟨?loadOnce, ?loadOk, ?tooLarge, ?unreadable, fun h k => Session.step_iff, ?keysOnly,
    fun _ => rfl, fun h => frameBut_reset_of_not_loaded⟩
  case loadOnce =>
    intro h k source hk
    obtain ⟨hs, ⟨rom, t, -, -, rfl⟩ | rfl⟩ := Session.load_cases hk
    · simp [hs]
    · simp [hs]
  case loadOk =>
    intro h rom hs hlen
    exact ⟨_, h.core.load_ok hlen, Session.load_of_ok hs (h.core.load_ok hlen)⟩
  case tooLarge =>
    intro h rom hs hlen
    exact Session.load_of_error hs (h.core.load_error hlen)
  case unreadable =>
    intro h hs
    exact Session.load_of_error hs rfl
  case keysOnly =>
    intro h k m hs hk hstep hreset
    obtain ⟨hm, -⟩ | ⟨keys, -, rfl⟩ | ⟨source, -, hatReset, -⟩ | ⟨hm, -⟩ := Session.move_cases hk
    · exact absurd hm hreset
    · exact ⟨hs, frameBut_setKeys h.core keys⟩
    · simp [hs] at hatReset
    · exact absurd hm hstep

end Sys2Proof.Machine
end

section
/-! PROOFS. The invariant (spec/10_state.md R24): at reset, under every step, and so in every
reachable session. -/

namespace Sys2Proof.Machine

/-! ### The parts of the invariant under an effect -/

theorem effect_mem_wf {s : State} {i : Instr} (hf : faultOf s i = none) (hwf : s.mem.wf = true) :
    (effect s i).mem.wf = true := by
  cases i with
  | ldB x =>
    have hI : ¬ s.I.toNat + 2 > 0xFFF := by simpa [faultOf] using hf
    exact Memory.wf_writeList _ (by simp [Config.memSize]; omega) hwf
  | storeRegs x =>
    have hI : ¬ s.I.toNat + x.val > 0xFFF := by simpa [faultOf] using hf
    exact Memory.wf_writeList _ (by simp [Config.memSize]; omega) hwf
  | ldVxK x =>
    simp only [effect]
    cases s.lowestKey <;> exact hwf
  | loadRegs x => simpa only [effect] using hwf
  | _ => exact hwf

/-- After an advance that left `pc` between 2 and `0x1000`, the table of R13 leads no further than
one skip. -/
theorem effect_pc_le {s : State} {i : Instr} (hf : faultOf s i = none) (hlo : 2 ≤ s.pc.toNat)
    (hhi : s.pc.toNat ≤ 0x1000) (hlive : s.liveEntriesBounded) :
    (effect s i).pc.toNat ≤ 0x1002 := by
  have hpc : PcAfter s (effect s i) i := pcMovesAsTabulated i s _ hf (exec_eq_effect hf)
  have hskip : (s.pc + 2).toNat ≤ 0x1002 := by bv_omega
  cases i with
  | jp nnn | call nnn =>
    have hnnn : nnn.toNat < 4096 := nnn.isLt
    have hjump : _ = nnn.toNat := hpc
    omega
  | ret =>
    have hsp : s.sp.val ≠ 0 := by simpa [faultOf] using hf
    have hpop : _ = s.stack[s.sp.val - 1] := hpc ⟨s.sp.val - 1, by omega⟩ (by simp; omega)
    have hentry := hlive ⟨s.sp.val - 1, by omega⟩ (by simp; omega)
    rw [hpop]
    exact Nat.le_trans hentry (by decide)
  | jpOff x nn =>
    have hnn : nn.toNat < 256 := nn.isLt
    have hx : (s.reg x).toNat < 256 := (s.reg x).isLt
    have hjump : _ = nn.toNat + (s.reg x).toNat := hpc
    omega
  | seImm | sneImm | seReg | sneReg | skp | sknp =>
    obtain ⟨-, htaken⟩ | ⟨-, hstays⟩ := hpc
    · rwa [htaken]
    · rw [hstays]; omega
  | ldVxK x =>
    obtain ⟨-, hstays⟩ | ⟨-, hback⟩ := hpc
    · rw [hstays]; omega
    · rw [hback]; bv_omega
  | _ =>
    have hstays : _ = s.pc := hpc
    rw [hstays]
    omega

theorem liveEntriesBounded_congr {s t : State} (hstack : t.stack = s.stack) (hsp : t.sp = s.sp)
    (hlive : s.liveEntriesBounded) : t.liveEntriesBounded := by
  intro k hk
  rw [hstack]
  exact hlive k (hsp ▸ hk)

/-- CALL makes one more entry live, the advanced `pc`; RET one fewer. -/
theorem effect_liveEntriesBounded {s : State} {i : Instr} (hf : faultOf s i = none)
    (hpc : s.pc.toNat ≤ 0x1000) (hlive : s.liveEntriesBounded) :
    (effect s i).liveEntriesBounded := by
  cases i with
  | call nnn =>
    intro k hk
    have hsp : s.sp.val ≠ 16 := by simpa [faultOf] using hf
    rw [effect_call_sp nnn (by omega)] at hk
    rw [effect_call_stack]
    split
    case isTrue => exact hpc
    case isFalse hne => exact hlive k (by omega)
  | ret =>
    intro k hk
    exact hlive k (Nat.lt_of_lt_of_le hk (Nat.sub_le _ _))
  | _ =>
    exact liveEntriesBounded_congr (frameBut_effect s _ .stack (by simp [mayWrite]))
      (frameBut_effect s _ .sp (by simp [mayWrite])) hlive

/-! ### Reset, steps and moves -/

/-- Settles O54: memory empty, `pc` at `0x200`, no live entry, no record and no report. -/
theorem resetMeetsTheInvariant : Obligations.ResetMeetsTheInvariant :=
  ⟨rfl, by decide, fun k hk => absurd hk (Nat.not_lt_zero _), rfl, fun _ => rfl⟩

/-- Settles O55: a halted core stays, a fault keeps what the fetch left, and a completed cycle has
the invariant's parts from its effect. -/
theorem everyStepKeepsTheInvariant : Obligations.EveryStepKeepsTheInvariant := by
  intro s t hinv h
  obtain ⟨hmem, hpc, hlive, hfault, hreport⟩ := hinv
  cases stepOutcome_of_step h with
  | halted => exact ⟨hmem, hpc, hlive, hfault, hreport⟩
  | fetchFault => exact ⟨hmem, hpc, hlive, rfl, fun _ => rfl⟩
  | fault c hr hle hc =>
    have hfetched := fetched_pc_toNat hle
    exact ⟨hmem, by rw [raise_pc]; omega, hlive, rfl, fun _ => rfl⟩
  | done hr hle hf =>
    have hfetched := fetched_pc_toNat hle
    refine ⟨effect_mem_wf hf hmem, effect_pc_le hf (by omega) (by omega) hlive,
      effect_liveEntriesBounded hf (by omega) hlive, ?record, ?report⟩
    case record =>
      rw [tick_halted, tick_fault, effect_halted, effect_fault]
      exact hfault
    case report =>
      rw [tick_halted, effect_halted, State.fetched_halted, hr]
      exact fun hfalse => absurd hfalse (by decide)

theorem inv_load {s t : State} {rom : List Byte} (h : s.load rom = .ok t) (hinv : s.Inv) :
    t.Inv := by
  obtain ⟨hlen, rfl⟩ := State.load_cases h
  obtain ⟨hmem, hrest⟩ := hinv
  exact ⟨Memory.wf_writeList rom (by simp only [Config.memSize]; omega) hmem, hrest⟩

/-- Settles O56: by induction on the moves: a reset starts again, keys are no part of the
invariant, a load keeps memory canonical, and a step is O55. -/
theorem reachableStatesMeetTheInvariant : Obligations.ReachableStatesMeetTheInvariant := by
  intro h hreach
  induction hreach with
  | start => exact resetMeetsTheInvariant
  | @move h k m _ hmove ih =>
    obtain ⟨-, rfl⟩ | ⟨keys, -, rfl⟩ | ⟨source, -, -, hload⟩ | ⟨-, -, t, ht, rfl⟩ :=
      Session.move_cases hmove
    · exact resetMeetsTheInvariant
    · exact ih
    · obtain ⟨rom, t, -, hok, rfl⟩ | rfl := hload
      · exact inv_load hok ih
      · exact ih
    · exact everyStepKeepsTheInvariant _ _ ih ht

end Sys2Proof.Machine
end

section
/-! PROOFS. What an instruction cannot see: the random input (spec/60_exceptions.md R157), the sound
timer (spec/10_state.md R18) and the dead entries of the stack (R15). -/

namespace Sys2Proof.Machine

/-- An update `g` of the state that the table of fatal conditions, `raise` and the effect of `i`
all carry along is carried along by execute. -/
theorem exec_commutes {g : State → State} {i : Instr} {s t : State}
    (hf : faultOf (g s) i = faultOf s i) (hr : ∀ c, raise c (g s) = g (raise c s))
    (he : effect (g s) i = g (effect s i)) (h : exec i s = .next t) :
    exec i (g s) = .next (g t) := by
  obtain ⟨c, hc, rfl⟩ | ⟨hnone, rfl⟩ := exec_cases h
  · rw [← hr c]
    exact exec_eq_raise (hf.trans hc)
  · rw [← he]
    exact exec_eq_effect (hf.trans hnone)

/-! ### The random input -/

theorem effect_setDraws (s : State) (d : Nat) {i : Instr} (hi : ∀ x nn, i ≠ .rnd x nn) :
    effect { s with draws := d } i = { effect s i with draws := d } := by
  cases i with
  | rnd x nn => exact absurd rfl (hi x nn)
  | ldVxK x =>
    show State.awaited { s with draws := d } x s.lowestKey = _
    rw [effect]
    cases s.lowestKey <;> rfl
  | _ => rfl

/-- Settles O57: only RND's effect mentions the draw counter. -/
theorem onlyRandomReadsTheDraws : Obligations.OnlyRandomReadsTheDraws := by
  intro i s t d hi h
  exact exec_commutes (g := fun s => { s with draws := d }) rfl (fun _ => rfl)
    (effect_setDraws s d hi) h

/-! ### The sound timer -/

theorem effect_setST (s : State) (v : Byte) {i : Instr} (hi : ∀ x, i ≠ .ldSTVx x) :
    effect { s with ST := v } i = { effect s i with ST := v } := by
  cases i with
  | ldSTVx x => exact absurd rfl (hi x)
  | ldVxK x =>
    show State.awaited { s with ST := v } x s.lowestKey = _
    rw [effect]
    cases s.lowestKey <;> rfl
  | _ => rfl

/-- Settles O58: LD ST, Vx overwrites the timer, and no other effect mentions it. -/
theorem noInstructionReadsTheSoundTimer : Obligations.NoInstructionReadsTheSoundTimer := by
  intro i s t v h
  cases i with
  | ldSTVx x =>
    cases h
    rfl
  | _ =>
    exact exec_commutes (g := fun s => { s with ST := v }) rfl (fun _ => rfl)
      (effect_setST s v (by simp)) h

/-! ### The dead entries of the stack -/

theorem effect_setStack (s : State) (k : Vector Word16 16) {i : Instr}
    (hi : Field.sp ∉ mayWrite i) :
    effect { s with stack := k } i = { effect s i with stack := k } := by
  cases i with
  | call | ret => simp [mayWrite] at hi
  | ldVxK x =>
    show State.awaited { s with stack := k } x s.lowestKey = _
    rw [effect]
    cases s.lowestKey <;> rfl
  | _ => rfl

/-- An instruction that writes neither `sp` nor the stack keeps agreement. -/
theorem agreeButDeadEntries_effect_of_frame {s : State} {k : Vector Word16 16} {i : Instr}
    (hi : Field.sp ∉ mayWrite i) (hi' : Field.stack ∉ mayWrite i)
    (hlive : ∀ j : Fin 16, j.val < s.sp.val → k[j.val] = s.stack[j.val]) :
    AgreeButDeadEntries (effect s i) (effect { s with stack := k } i) := by
  have hsp : (effect s i).sp = s.sp := frameBut_effect s i .sp hi
  have hstack : (effect s i).stack = s.stack := frameBut_effect s i .stack hi'
  rw [effect_setStack s k hi]
  refine ⟨rfl, fun j hj => ?_⟩
  rw [hstack]
  exact hlive j (hsp ▸ hj)

/-- RET pops a live entry, CALL overwrites the first dead one, and no other instruction sees the
stack. -/
theorem agreeButDeadEntries_effect {s : State} {k : Vector Word16 16} {i : Instr}
    (hf : faultOf s i = none)
    (hlive : ∀ j : Fin 16, j.val < s.sp.val → k[j.val] = s.stack[j.val]) :
    AgreeButDeadEntries (effect s i) (effect { s with stack := k } i) := by
  cases i with
  | ret =>
    have hsp : s.sp.val ≠ 0 := by simpa [faultOf] using hf
    have hpop := hlive ⟨s.sp.val - 1, by omega⟩ (by simp; omega)
    refine ⟨?record, fun j hj => hlive j (Nat.lt_of_lt_of_le hj (Nat.sub_le _ _))⟩
    case record => simpa [effect] using hpop
  | call nnn =>
    have hsp : s.sp.val ≠ 16 := by simpa [faultOf] using hf
    refine ⟨rfl, fun j hj => ?entries⟩
    case entries =>
      rw [effect_call_sp nnn (by omega)] at hj
      rw [effect_call_stack, effect_call_stack]
      by_cases htop : j.val = s.sp.val
      · rw [if_pos htop, if_pos htop]
      · rw [if_neg htop, if_neg htop]
        exact hlive j (by omega)
  | _ => exact agreeButDeadEntries_effect_of_frame (by simp [mayWrite]) (by simp [mayWrite]) hlive

theorem AgreeButDeadEntries.tick {s u : State} (h : AgreeButDeadEntries s u) :
    AgreeButDeadEntries (tick s) (tick u) := by
  obtain ⟨hu, hlive⟩ := h
  generalize u.stack = k at hu hlive
  subst hu
  exact ⟨rfl, hlive⟩

/-- Fetch and the table of fatal conditions do not look at stack entries, so the outcome is the
same one. -/
theorem StepOutcome.setStack {s t : State} {k : Vector Word16 16} (h : StepOutcome s t)
    (hlive : ∀ j : Fin 16, j.val < s.sp.val → k[j.val] = s.stack[j.val]) :
    ∃ w, StepOutcome { s with stack := k } w ∧ AgreeButDeadEntries t w := by
  cases h with
  | halted hh => exact ⟨_, .halted hh, rfl, hlive⟩
  | fetchFault hr hpc => exact ⟨_, .fetchFault hr hpc, rfl, hlive⟩
  | fault c hr hpc hc => exact ⟨_, .fault c hr hpc hc, rfl, hlive⟩
  | done hr hpc hf => exact ⟨_, .done hr hpc hf, (agreeButDeadEntries_effect hf hlive).tick⟩

/-- Settles O59: whatever outcome the one state's step has, the other's has it too. -/
theorem deadStackEntriesAreNeverRead : Obligations.DeadStackEntriesAreNeverRead := by
  intro s u t hagree h
  obtain ⟨hu, hlive⟩ := hagree
  generalize u.stack = k at hu hlive
  subst hu
  obtain ⟨w, hw, hagree⟩ := (stepOutcome_of_step h).setStack hlive
  exact ⟨w, hw.step_eq, hagree⟩

end Sys2Proof.Machine
end

section
/-! PROOFS. The draw (spec/44_display.md R121, R122): the sprite's bytes light the pixels of
`spriteLit`, and what one draw, two draws and a draw on a clear screen leave. -/

namespace Sys2Proof.Machine

/-! ### The sprite drawn -/

/-- The pixels lit by the bytes a draw reads are those of the claims' `spriteLit`. -/
theorem bytesLit_bytesAt (s : State) (x y : Reg) (n : Nibble) (row col : Nat) :
    bytesLit (s.mem.bytesAt s.I.toNat n.toNat) (originRow (s.reg y)) (originCol (s.reg x)) row col =
      spriteLit s x y n row col := by
  rw [Bool.eq_iff_iff]
  simp only [bytesLit, byteLit, spriteLit, Bool.and_eq_true, decide_eq_true_eq]
  simp only [Memory.length_bytesAt, originRow, originCol]
  by_cases hrow : (s.reg y).toNat % 32 ≤ row ∧ row < (s.reg y).toNat % 32 + n.toNat
  · rw [Memory.getD_bytesAt _ _ (by omega)]
    obtain ⟨htop, hbottom⟩ := hrow
    simp only [htop, hbottom, true_and, and_self]
  · exact iff_of_false (fun ⟨h, _⟩ => hrow h) (fun ⟨⟨htop, hbottom, _⟩, _⟩ => hrow ⟨htop, hbottom⟩)

theorem drawn_pixel (s : State) (x y : Reg) (n : Nibble) {row col : Nat} (hrow : row ≤ 31)
    (hcol : col ≤ 63) :
    (s.drawn x y n).1.pixel row col = (s.disp.pixel row col ^^ spriteLit s x y n row col) := by
  rw [← bytesLit_bytesAt]
  exact (drawSprite_spec _ _ _ _).1 row col hrow hcol

theorem drawn_hit (s : State) (x y : Reg) (n : Nibble) :
    (s.drawn x y n).2 = true ↔ ∃ row col, row ≤ 31 ∧ col ≤ 63 ∧
      spriteLit s x y n row col = true ∧ s.disp.pixel row col = true := by
  rw [State.drawn, (drawSprite_spec _ _ _ _).2]
  simp only [bytesLit_bytesAt, Bool.false_eq_true, false_or]

/-- A hit is a pixel that was set and is clear after the draw. -/
theorem drawn_hit_iff_cleared (s : State) (x y : Reg) (n : Nibble) :
    (s.drawn x y n).2 = true ↔ ∃ row col, row ≤ 31 ∧ col ≤ 63 ∧
      s.disp.pixel row col = true ∧ (s.drawn x y n).1.pixel row col = false := by
  rw [drawn_hit]
  constructor
  · rintro ⟨row, col, hrow, hcol, hlit, hset⟩
    exact ⟨row, col, hrow, hcol, hset, by rw [drawn_pixel s x y n hrow hcol, hset, hlit]; rfl⟩
  · rintro ⟨row, col, hrow, hcol, hset, hclear⟩
    rw [drawn_pixel s x y n hrow hcol, hset, Bool.true_xor, Bool.not_eq_false'] at hclear
    exact ⟨row, col, hrow, hcol, hclear, hset⟩

theorem exec_drw {x y : Reg} {n : Nibble} {s : State}
    (h : n.toNat = 0 ∨ s.I.toNat + n.toNat - 1 ≤ 0xFFF) :
    exec (.drw x y n) s = .next (effect s (.drw x y n)) := execDrw_ok x y n s h

theorem flagByte_eq_one_iff (b : Bool) : flagByte b = 0x01 ↔ b = true := by
  cases b <;> simp

/-- Settles O25: pixels and flag of the sprite drawn, the flag written last. -/
theorem drawTogglesTheSpritesPixels : Obligations.DrawTogglesTheSpritesPixels := by
  intro x y n s
  constructor
  · intro hI
    refine ⟨_, exec_drw hI, fun row col hrow hcol => drawn_pixel s x y n hrow hcol,
      (setFlag_flag_zero_or_one _ _).symm, ?flag, fun r hr => regsBut_setFlag _ _ r hr,
      ((frameBut_setDisp s _).trans (frameBut_setFlag _ _)).mono (by simp)⟩
    case flag =>
      rw [effect, State.reg_setFlag_flag, flagByte_eq_one_iff]
      exact drawn_hit_iff_cleared s x y n
  · intro hn hI
    exact exec_faultsWith (if_pos ⟨hn, hI⟩)

/-! ### Two draws, and a draw on a clear screen -/

/-- The sprite depends on memory, `I` and the two coordinates only. -/
theorem spriteLit_congr {s t : State} {x y : Reg} (n : Nibble)
    (hmem : ∀ a, t.mem.read a = s.mem.read a) (hI : t.I = s.I) (hx : t.reg x = s.reg x)
    (hy : t.reg y = s.reg y) : spriteLit t x y n = spriteLit s x y n := by
  funext row col
  simp only [spriteLit, hmem, hI, hx, hy]

theorem faultOf_drw_congr {s t : State} (x y : Reg) (n : Nibble) (hI : t.I = s.I) :
    faultOf t (.drw x y n) = faultOf s (.drw x y n) := by
  simp only [faultOf, hI]

/-- Settles O26: the second draw has the same sprite, or the same fault, and toggling twice is no
change. -/
theorem drawTwiceRestoresTheFrame : Obligations.DrawTwiceRestoresTheFrame := by
  intro x y n s t u hx hy hst htu
  have hframe : FrameBut (mayWrite (.drw x y n)) s t :=
    fieldsAreWrittenOnlyByTheirInstructions _ s t hst
  have hI : t.I = s.I := hframe .I (by simp [mayWrite])
  have hfault := faultOf_drw_congr x y n hI
  obtain ⟨c, hc, rfl⟩ | ⟨hf, rfl⟩ := exec_cases hst
  · rw [exec_eq_raise (hfault.trans hc)] at htu
    cases htu
    rfl
  · obtain rfl := eq_effect_of_exec (hfault.trans hf) htu
    have hregs := regsBut_effect s (.drw x y n)
    have hlit := spriteLit_congr n (hframe .mem (by simp [mayWrite])) hI
      (hregs x (by simpa [writtenRegs, destRegs, setsFlag] using hx))
      (hregs y (by simpa [writtenRegs, destRegs, setsFlag] using hy))
    refine Frame.ext_pixel fun row col hrow hcol => ?_
    calc (effect (effect s (.drw x y n)) (.drw x y n)).disp.pixel row col
      _ = ((s.drawn x y n).1.pixel row col ^^ spriteLit _ x y n row col) :=
          drawn_pixel _ x y n hrow hcol
      _ = (s.disp.pixel row col ^^ spriteLit s x y n row col ^^ spriteLit s x y n row col) := by
          rw [drawn_pixel s x y n hrow hcol, hlit]
      _ = s.disp.pixel row col := by rw [Bool.xor_assoc, Bool.xor_self, Bool.xor_false]

/-- Settles O27: no pixel of a clear frame can be turned off, so VF is 0, and the sprite's pixels
are toggled from clear. -/
theorem clearThenDrawLeavesTheSprite : Obligations.ClearThenDrawLeavesTheSprite := by
  intro x y n s t hcls hI
  rw [exec_cls] at hcls
  cases hcls
  obtain ⟨u, hu, hpixel, hbit, hflag, -⟩ :=
    (drawTogglesTheSpritesPixels x y n { s with disp := Frame.blank }).1 hI
  refine ⟨u, hu, ?flag, fun row col hrow hcol => ?pixel⟩
  case flag =>
    refine hbit.resolve_left fun hone => ?_
    obtain ⟨row, col, -, -, hset, -⟩ := hflag.mp hone
    simp at hset
  case pixel =>
    rw [hpixel row col hrow hcol, Frame.pixel_blank, Bool.false_xor]
    rfl

end Sys2Proof.Machine
end
